-- ==== Sys2Proof/Word.lean ====
section
/-! DEFINITION. The byte, and the narrowing of the spec's notation (spec/00_scope.md §5). -/

namespace Sys2Proof

/-- A byte: every register and every memory location holds one (00_scope.md R10: `BYTE`, `REG_WIDTH`). -/
abbrev Byte := BitVec 8

/-- `u8(v) = v mod 256` for any integer `v`, the non-negative residue (00_scope.md §5). -/
def u8 (v : Int) : Byte := BitVec.ofInt 8 v

end Sys2Proof
end

