-- ==== Sys2Proof/Config.lean ====
section
/-! DEFINITION. The implementation parameters of spec/00_scope.md R10: the fixed sizes as constants, and the three
parameters of spec/92_eei_decisions.md (OPCODE_TABLE, CMP_MODE, EAGER_OPERAND_FETCH) as the fields of `Config`, which
every definition of the cycle takes as an argument. The values the spec gives the three are `specConfig`, in
Sys2Proof/Decode.lean. -/

namespace Sys2Proof

/-- `MEM_SIZE` (00_scope.md R10, 20_memory.md R40). -/
def memSize : Nat := 256

/-- `NREG` (00_scope.md R10, 10_state.md R20). -/
abbrev nreg : Nat := 8

/-- A register index that has passed `checkReg` (00_scope.md R12). -/
abbrev Reg := Fin nreg

/-- `SP_INDEX`: register 7 is the stack pointer (00_scope.md R10). -/
def sp : Reg := 7

/-- `SP_RESET`, and the value at and above which `pop` no longer moves SP (00_scope.md R10, 20_memory.md R47). -/
def spReset : Byte := 255

/-- `CMP_MODE` (41_alu.md R119, 92_eei_decisions.md D3). -/
inductive CmpMode where
  | unsigned
  | signed
  deriving DecidableEq, Repr

/-- `OPCODE_TABLE`: the opcode byte of each of the fifteen instructions (30_encoding.md R66, D1). -/
structure OpcodeTable where
  hlt  : Byte
  ret  : Byte
  prn  : Byte
  push : Byte
  pop  : Byte
  call : Byte
  jmp  : Byte
  jeq  : Byte
  jne  : Byte
  ldi  : Byte
  add  : Byte
  sub  : Byte
  mul  : Byte
  div  : Byte
  cmp  : Byte
  deriving DecidableEq, Repr

/-- The parameters a model takes as arguments (00_scope.md R10). -/
structure Config where
  opcodeTable       : OpcodeTable
  cmpMode           : CmpMode
  /-- `EAGER_OPERAND_FETCH` (40_execution_cycle.md R93, D5). -/
  eagerOperandFetch : Bool
  deriving DecidableEq, Repr

end Sys2Proof
end

