-- ==== Sys2Proof/Syntax.lean ====
section
/-! DEFINITION. The instructions: one constructor of `Instr` per row of spec/opcode_table.json, its operands the raw
operand bytes. An operand byte is never illegal at decode (30_encoding.md R70), so a register operand is a whole byte
here and is checked when the instruction executes. -/

namespace Sys2Proof

/-- The fifteen instruction names (30_encoding.md R66). -/
inductive Mnemonic where
  | hlt | ret | prn | push | pop | call | jmp | jeq | jne | ldi | add | sub | mul | div | cmp
  deriving DecidableEq, Repr

/-- The four formats of 30_encoding.md R64. -/
inductive Format where
  /-- opcode -/
  | z
  /-- opcode, register -/
  | r
  /-- opcode, register, register -/
  | rr
  /-- opcode, register, immediate -/
  | ri
  deriving DecidableEq, Repr

/-- How many operand bytes a format has (30_encoding.md R64). -/
def Format.operandCount : Format → Nat
  | .z => 0
  | .r => 1
  | .rr => 2
  | .ri => 2

/-- The format of each instruction (30_encoding.md R64, R66). -/
def Mnemonic.format : Mnemonic → Format
  | .hlt => .z
  | .ret => .z
  | .prn => .r
  | .push => .r
  | .pop => .r
  | .call => .r
  | .jmp => .r
  | .jeq => .r
  | .jne => .r
  | .ldi => .ri
  | .add => .rr
  | .sub => .rr
  | .mul => .rr
  | .div => .rr
  | .cmp => .rr

/-- Every name once. -/
def Mnemonic.all : List Mnemonic :=
  [.hlt, .ret, .prn, .push, .pop, .call, .jmp, .jeq, .jne, .ldi, .add, .sub, .mul, .div, .cmp]

/-- The instructions, with `r`, `a`, `b` the register operand bytes and `imm` the immediate byte (30_encoding.md R64). -/
inductive Instr where
  | hlt
  | ret
  | prn (r : Byte)
  | push (r : Byte)
  | pop (r : Byte)
  | call (r : Byte)
  | jmp (r : Byte)
  | jeq (r : Byte)
  | jne (r : Byte)
  | ldi (r imm : Byte)
  | add (a b : Byte)
  | sub (a b : Byte)
  | mul (a b : Byte)
  | div (a b : Byte)
  | cmp (a b : Byte)
  deriving DecidableEq, Repr

def Instr.mnemonic : Instr → Mnemonic
  | .hlt => .hlt
  | .ret => .ret
  | .prn _ => .prn
  | .push _ => .push
  | .pop _ => .pop
  | .call _ => .call
  | .jmp _ => .jmp
  | .jeq _ => .jeq
  | .jne _ => .jne
  | .ldi _ _ => .ldi
  | .add _ _ => .add
  | .sub _ _ => .sub
  | .mul _ _ => .mul
  | .div _ _ => .div
  | .cmp _ _ => .cmp

/-- The operand bytes in the order they lie in memory (20_memory.md R44, 30_encoding.md R64). -/
def Instr.operands : Instr → List Byte
  | .hlt => []
  | .ret => []
  | .prn r => [r]
  | .push r => [r]
  | .pop r => [r]
  | .call r => [r]
  | .jmp r => [r]
  | .jeq r => [r]
  | .jne r => [r]
  | .ldi r imm => [r, imm]
  | .add a b => [a, b]
  | .sub a b => [a, b]
  | .mul a b => [a, b]
  | .div a b => [a, b]
  | .cmp a b => [a, b]

/-- The operand bytes used as register indices, in the order they are checked (40_execution_cycle.md R95). -/
def Instr.regOperands : Instr → List Byte
  | .hlt => []
  | .ret => []
  | .prn r => [r]
  | .push r => [r]
  | .pop r => [r]
  | .call r => [r]
  | .jmp r => [r]
  | .jeq r => [r]
  | .jne r => [r]
  | .ldi r _ => [r]
  | .add a b => [a, b]
  | .sub a b => [a, b]
  | .mul a b => [a, b]
  | .div a b => [a, b]
  | .cmp a b => [a, b]

/-- The length in bytes: `operandCount + 1` (30_encoding.md R60, R63). -/
def Instr.length (i : Instr) : Nat := i.mnemonic.format.operandCount + 1

end Sys2Proof
end

