-- ==== Sys2Proof/WellFormed.lean ====
section
/-! DEFINITION. Which instructions are well formed, and their assembly form. A register operand other than R0 to R7
"cannot be written in this syntax; it can appear only in a raw program image" (30_encoding.md R72): such an instruction
still decodes (R70) and still executes, raising InvalidRegister (40_execution_cycle.md R95), so `Instr` holds it and
`WellFormed` refuses it. -/

namespace Sys2Proof

/-- The check of one register operand: `r < 8` (00_scope.md R12). -/
def regOperandOk (r : Byte) : Bool := decide (r.toNat < nreg)

/-- Every register operand names a register. -/
def Instr.wellFormed (i : Instr) : Bool := i.regOperands.all regOperandOk

abbrev Instr.WellFormed (i : Instr) : Prop := i.wellFormed = true

/-- The operands of the assembly syntax of 30_encoding.md R72. -/
inductive AsmOperand where
  /-- `R0` to `R7` -/
  | reg (r : Reg)
  /-- a decimal immediate -/
  | imm (value : Nat)
  deriving DecidableEq, Repr

/-- `MNEMONIC op, op` as its parts (30_encoding.md R72, D26). -/
structure AsmLine where
  name     : String
  operands : List AsmOperand
  deriving DecidableEq, Repr

/-- The spelling of each mnemonic (30_encoding.md R72). -/
def Mnemonic.spelling : Mnemonic → String
  | .hlt => "HLT"
  | .ret => "RET"
  | .prn => "PRN"
  | .push => "PUSH"
  | .pop => "POP"
  | .call => "CALL"
  | .jmp => "JMP"
  | .jeq => "JEQ"
  | .jne => "JNE"
  | .ldi => "LDI"
  | .add => "ADD"
  | .sub => "SUB"
  | .mul => "MUL"
  | .div => "DIV"
  | .cmp => "CMP"

/-- A register operand in assembly, where it has one. -/
def asmReg (r : Byte) : Option AsmOperand :=
  if h : r.toNat < nreg then some (.reg ⟨r.toNat, h⟩) else none

/-- The operands of an instruction in assembly, where each register operand has one (30_encoding.md R72). -/
def Instr.asmOperands : Instr → Option (List AsmOperand)
  | .ldi r imm => (asmReg r).map fun o => [o, .imm imm.toNat]
  | i => i.regOperands.mapM asmReg

/-- The assembly form, which exists exactly for a well-formed instruction. -/
def Instr.assembly (i : Instr) : Option AsmLine :=
  i.asmOperands.map fun os => { name := i.mnemonic.spelling, operands := os }

end Sys2Proof
end

