-- ==== Sys2Proof/Decode.lean ====
section
/-! DEFINITION. Decoding and encoding (spec/30_encoding.md), and the values the spec gives the parameters
(`specConfig`), which stand here so that the table has one home beside the decoder. -/

namespace Sys2Proof

/-! ### The decode fields (30_encoding.md R61, R62) -/

/-- `operandCount(IR) = IR[7:6]`. -/
def operandCount (ir : Byte) : Nat := (ir.extractLsb' 6 2).toNat

/-- `isALU(IR) = IR[5]`. -/
def isALU (ir : Byte) : Bool := ir.getLsbD 5

/-- `noAutoAdvance(IR) = IR[4]`. -/
def noAutoAdvance (ir : Byte) : Bool := ir.getLsbD 4

/-! ### The opcode table (30_encoding.md R66) -/

/-- The byte a table gives an instruction. -/
def OpcodeTable.byteOf (t : OpcodeTable) : Mnemonic → Byte
  | .hlt => t.hlt
  | .ret => t.ret
  | .prn => t.prn
  | .push => t.push
  | .pop => t.pop
  | .call => t.call
  | .jmp => t.jmp
  | .jeq => t.jeq
  | .jne => t.jne
  | .ldi => t.ldi
  | .add => t.add
  | .sub => t.sub
  | .mul => t.mul
  | .div => t.div
  | .cmp => t.cmp

/-- The instruction whose byte equals the whole opcode byte, if there is one (30_encoding.md R67, D6). -/
def OpcodeTable.lookup (t : OpcodeTable) (ir : Byte) : Option Mnemonic :=
  Mnemonic.all.find? fun m => t.byteOf m == ir

/-- Is the instruction an ALU operation? (30_encoding.md R66, bit 5.) -/
def Mnemonic.isALU : Mnemonic → Bool
  | .add => true
  | .sub => true
  | .mul => true
  | .div => true
  | .cmp => true
  | .hlt => false
  | .ret => false
  | .prn => false
  | .push => false
  | .pop => false
  | .call => false
  | .jmp => false
  | .jeq => false
  | .jne => false
  | .ldi => false

/-- Bit 4 of the opcode byte, where the source fixes it: `none` for JEQ and JNE (30_encoding.md R66, 90_conflicts.md C1). -/
def Mnemonic.bit4 : Mnemonic → Option Bool
  | .ret => some true
  | .call => some true
  | .jmp => some true
  | .jeq => none
  | .jne => none
  | .hlt => some false
  | .prn => some false
  | .push => some false
  | .pop => some false
  | .ldi => some false
  | .add => some false
  | .sub => some false
  | .mul => some false
  | .div => some false
  | .cmp => some false

/-- A byte has the fields the source fixes for an instruction (30_encoding.md R66, column "src"). -/
def Mnemonic.fieldsOk (m : Mnemonic) (ir : Byte) : Bool :=
  operandCount ir == m.format.operandCount && Sys2Proof.isALU ir == m.isALU &&
    (m.bit4 == none || m.bit4 == some (noAutoAdvance ir))

/-- What a table must satisfy: no two instructions share a byte, and each byte keeps the bits 7:4 the source fixes
(92_eei_decisions.md D1: "A replacement table must keep the bits 7:4 the source fixes."). -/
def OpcodeTable.wf (t : OpcodeTable) : Bool :=
  (Mnemonic.all.all fun m => Mnemonic.all.all fun n => t.byteOf m != t.byteOf n || m == n) &&
    Mnemonic.all.all fun m => m.fieldsOk (t.byteOf m)

/-- The table of 30_encoding.md R66. PRESUMED (log entry 1): the low four bits of every byte, and bit 4 of JEQ and
JNE, are the LS-8 values, which the spec itself takes from general knowledge. -/
def specTable : OpcodeTable where
  hlt  := 0b00000001
  ret  := 0b00010001
  prn  := 0b01000111
  push := 0b01000101
  pop  := 0b01000110
  call := 0b01010000
  jmp  := 0b01010100
  jeq  := 0b01010101
  jne  := 0b01010110
  ldi  := 0b10000010
  add  := 0b10100000
  sub  := 0b10100001
  mul  := 0b10100010
  div  := 0b10100011
  cmp  := 0b10100111

/-- The values the spec gives the parameters (00_scope.md R10). DESIGN CHOICE of the spec (log entries 3 and 4):
CMP compares unsigned, and only the operands an instruction has are read. -/
def specConfig : Config where
  opcodeTable := specTable
  cmpMode := .unsigned
  eagerOperandFetch := false

/-! ### The decoder -/

/-- Why bytes are no instruction. -/
inductive DecodeError where
  /-- a byte the instruction needs, at this offset from its opcode, is not there -/
  | missingByte (offset : Nat)
  /-- the opcode byte is none of the table's (30_encoding.md R68) -/
  | unknownOpcode (ir : Byte)
  deriving DecidableEq, Repr

/-- The instruction with this name and these operand bytes, if their number is right (30_encoding.md R64). -/
def Instr.build : Mnemonic → List Byte → Option Instr
  | .hlt, [] => some .hlt
  | .ret, [] => some .ret
  | .prn, [r] => some (.prn r)
  | .push, [r] => some (.push r)
  | .pop, [r] => some (.pop r)
  | .call, [r] => some (.call r)
  | .jmp, [r] => some (.jmp r)
  | .jeq, [r] => some (.jeq r)
  | .jne, [r] => some (.jne r)
  | .ldi, [r, imm] => some (.ldi r imm)
  | .add, [a, b] => some (.add a b)
  | .sub, [a, b] => some (.sub a b)
  | .mul, [a, b] => some (.mul a b)
  | .div, [a, b] => some (.div a b)
  | .cmp, [a, b] => some (.cmp a b)
  | _, _ => none

/-- `n` operand bytes from offset `k` on, read in order (40_execution_cycle.md R93). -/
def readOperands (read : Nat → Option Byte) : (n k : Nat) → Except DecodeError (List Byte)
  | 0, _ => .ok []
  | n + 1, k =>
    match read k with
    | none => .error (.missingByte k)
    | some b =>
      match readOperands read n (k + 1) with
      | .error e => .error e
      | .ok bs => .ok (b :: bs)

/-- The decoder, over any source of bytes by offset from the opcode byte, in the order of 40_execution_cycle.md R98:
the opcode byte, its match against the table, then the operand bytes. -/
def decodeFrom (t : OpcodeTable) (read : Nat → Option Byte) : Except DecodeError Instr :=
  match read 0 with
  | none => .error (.missingByte 0)
  | some ir =>
    match t.lookup ir with
    | none => .error (.unknownOpcode ir)
    | some m =>
      match readOperands read (operandCount ir) 1 with
      | .error e => .error e
      | .ok ops =>
        match Instr.build m ops with
        | none => .error (.unknownOpcode ir)
        | some i => .ok i

/-- Decoding a list of bytes: the instruction and the bytes after it. -/
def decode (t : OpcodeTable) (bytes : List Byte) : Except DecodeError (Instr × List Byte) :=
  match decodeFrom t fun k => bytes[k]? with
  | .error e => .error e
  | .ok i => .ok (i, bytes.drop i.length)

/-! ### The encoder -/

/-- The bytes of an instruction: the opcode, then the operands (20_memory.md R44, 30_encoding.md R64, R66). -/
def encode (t : OpcodeTable) (i : Instr) : List Byte := t.byteOf i.mnemonic :: i.operands

/-- The first `n` bytes of an instruction given as a number whose bit 0 is bit 0 of the first byte. -/
def bytesOfWord : (n w : Nat) → List Byte
  | 0, _ => []
  | n + 1, w => BitVec.ofNat 8 w :: bytesOfWord n (w / 256)

/-- The longest instruction has three bytes (30_encoding.md R63). -/
def maxLength : Nat := 3

/-- The bytes of a table word: every bit from `nbits` on is 0, up to the longest instruction. -/
def tableWordBytes (nbits w : Nat) : List Byte := bytesOfWord maxLength (w % 2 ^ nbits)

/-- The instruction the decoder reads from a word numbered as spec/opcode_table.json numbers it. -/
def decodeTableWord (nbits w : Nat) : Option Instr :=
  match decode specConfig.opcodeTable (tableWordBytes nbits w) with
  | .ok (i, _) => some i
  | .error _ => none

end Sys2Proof
end

