-- ==== Sys2Proof/Machine/State.lean ====
section
/-! DEFINITION. The state of the CORE, the reasons a step stops, and the state after reset (spec/10_state.md R30, R31;
spec/60_exceptions.md R180). -/

namespace Sys2Proof.Machine

/-- The five error kinds (60_exceptions.md R180). -/
inductive ErrorKind where
  | outOfBounds
  | invalidRegister
  | unknownOpcode
  | divideByZero
  | unsupportedOperation
  deriving DecidableEq, Repr

/-- The numeric codes of 60_exceptions.md R180 (D14). -/
def ErrorKind.code : ErrorKind → Nat
  | .outOfBounds => 1
  | .invalidRegister => 2
  | .unknownOpcode => 3
  | .divideByZero => 4
  | .unsupportedOperation => 5

/-- Memory as (address, byte) pairs, in the canonical form `Memory.wf` of Sys2Proof/Machine/Ops.lean. -/
abbrev Memory := List Host.Cell

/-- The seven pieces of state of 10_state.md R30. -/
structure State where
  /-- `mem[0..255]` (20_memory.md R40); an unlisted address reads 0, its reset contents -/
  mem    : Memory
  /-- `x[0]` to `x[7]`; `x[7]` is SP (10_state.md R20, R23) -/
  regs   : Vector Byte nreg
  /-- `pc`, a natural number with no wrap (10_state.md R25, D2) -/
  pc     : Nat
  /-- `FL` (10_state.md R26) -/
  fl     : Byte
  /-- `halted` (10_state.md R32) -/
  halted : Bool
  /-- `error` (10_state.md R33) -/
  error  : Option ErrorKind
  /-- `out`, the bytes PRN emitted, oldest first (10_state.md R34) -/
  out    : List Byte
  deriving DecidableEq, Repr

/-- The reset values of 10_state.md R31: `construct()` of 70_reset_and_hazards.md R200. -/
def State.reset : State where
  mem := []
  regs := #v[0, 0, 0, 0, 0, 0, 0, spReset]
  pc := 0
  fl := 0
  halted := false
  error := none
  out := []

/-- The status output of 70_reset_and_hazards.md R206. -/
inductive Status where
  | running
  | halted
  | failed (kind : ErrorKind)
  deriving DecidableEq, Repr

/-- Why there is no further step, or no loaded machine. -/
inductive Fault where
  /-- Raised by a step asked of a machine that HLT has halted: "the engine performs no further step" (10_state.md R32).
  The end of a run that returns Ok (70_reset_and_hazards.md R203 (a)). Safe: the hardware takes no step either. -/
  | halted
  /-- Raised by a step asked of a machine whose earlier step raised this error: "the engine performs no further step"
  (10_state.md R33). The end of a run that returns the kind (70_reset_and_hazards.md R203 (b)). Safe: the hardware takes
  no step either. -/
  | failed (kind : ErrorKind)
  /-- Raised by `load` of more than 256 bytes: OutOfBounds, nothing written (70_reset_and_hazards.md R201, D19). Safe:
  the model goes on from no state where the reference might leave a partly loaded one. -/
  | loadOutOfBounds
  deriving DecidableEq, Repr

/-- What the model gives no meaning. -/
inductive Refusal where
  /-- Raised by an arm of `exec` whose instruction has no meaning yet. No arm is left so. Safe. -/
  | notModelled (mnemonic : String)
  /-- Raised by `load` on a machine whose run has ended (93_implementation_defined.md U14: `refuse`). Safe. -/
  | loadAfterRun
  /-- Raised by `run()` on a machine that is halted or failed (70_reset_and_hazards.md R202, D24; 93 U14: `refuse`).
  Safe. -/
  | runNotAdmitted
  deriving DecidableEq, Repr

/-- What a step, or a meaning, answers. -/
abbrev Outcome := Host.Outcome State Fault Refusal

end Sys2Proof.Machine
end

