-- ==== Sys2Proof/Machine/Flags.lean ====
section
/-! DEFINITION. The flags register (spec/10_state.md R26, R27) and the one flag computation, CMP's (41_alu.md R118, R119). -/

namespace Sys2Proof.Machine

/-- E, bit 0 of FL (10_state.md R26). -/
def flagE (s : State) : Bool := s.fl.getLsbD 0

/-- G, bit 1 of FL (10_state.md R26). -/
def flagG (s : State) : Bool := s.fl.getLsbD 1

/-- L, bit 2 of FL (10_state.md R26). -/
def flagL (s : State) : Bool := s.fl.getLsbD 2

/-- FL after a compare that found Less (10_state.md R27). -/
def flLess : Byte := 0b100

/-- FL after a compare that found Greater (10_state.md R27). -/
def flGreater : Byte := 0b010

/-- FL after a compare that found Equal (10_state.md R27). -/
def flEqual : Byte := 0b001

/-- `s8(v)` is `v` below 128 and `v - 256` from 128 on (00_scope.md §5). -/
def s8 (v : Byte) : Int := if v.toNat < 128 then (v.toNat : Int) else (v.toNat : Int) - 256

/-- The integer CMP compares (41_alu.md R118: `key`). -/
def compareKey : CmpMode → Byte → Int
  | .unsigned, v => v.toNat
  | .signed, v => s8 v

/-- The flags CMP sets for the values `va` and `vb` (41_alu.md R118). -/
def compareFlags (mode : CmpMode) (va vb : Byte) : Byte :=
  if compareKey mode va < compareKey mode vb then flLess
  else if compareKey mode va > compareKey mode vb then flGreater
  else flEqual

/-- `FL <- f`, wholesale (10_state.md R27). -/
def setFl (f : Byte) (s : State) : State := { s with fl := f }

end Sys2Proof.Machine
end

