-- ==== Sys2Proof/Machine/Ops.lean ====
section
/-! DEFINITION. The named operations over memory, registers, the stack and the program counter; taking an error; and
the end of a step (spec/00_scope.md §5, 10_state.md, 20_memory.md, 60_exceptions.md, 40_execution_cycle.md R97). -/

namespace Sys2Proof.Machine

/-! ### Running, halted or failed -/

/-- A step is possible only when `halted` is false and `error` is none (40_execution_cycle.md R90). No run reaches a
state that is both halted and failed; DESIGN CHOICE (log entry 18): such a state counts as failed. -/
def State.status (s : State) : Status :=
  match s.error with
  | some e => .failed e
  | none => if s.halted then .halted else .running

/-! ### Memory (20_memory.md §1) -/

/-- What an unlisted address reads as: memory is all 0 at reset (10_state.md R31). -/
def unlistedByte : Byte := 0

/-- The byte at an address of memory. -/
def Memory.read : Memory → Nat → Byte
  | [], _ => unlistedByte
  | (k, b) :: m, a => if a = k then b else Memory.read m a

/-- A cell put in front, unless its byte is what an unlisted address reads as. -/
def Memory.consCell (a : Nat) (v : Byte) (m : Memory) : Memory :=
  if v = unlistedByte then m else (a, v) :: m

/-- `mem[a] <- v`, keeping the canonical form. -/
def Memory.write : Memory → Nat → Byte → Memory
  | [], a, v => Memory.consCell a v []
  | (k, b) :: m, a, v =>
    if a < k then Memory.consCell a v ((k, b) :: m)
    else if a = k then Memory.consCell a v m
    else (k, b) :: Memory.write m a v

/-- Addresses strictly rising from `low` on and below 256, no byte equal to the unlisted one. -/
def Memory.wfFrom : Nat → Memory → Bool
  | _, [] => true
  | low, (k, b) :: m => decide (low ≤ k) && decide (k < memSize) && b != unlistedByte && Memory.wfFrom (k + 1) m

/-- The canonical form of memory. -/
def Memory.wf (m : Memory) : Bool := Memory.wfFrom 0 m

/-- `MemRead(a, 1)` (20_memory.md R41). -/
def memRead (s : State) (a : Nat) : Except ErrorKind Byte :=
  if a < memSize then .ok (Memory.read s.mem a) else .error .outOfBounds

/-- `MemWrite(a, 1, v)` (20_memory.md R42). -/
def memWrite (a : Nat) (v : Byte) (s : State) : Except ErrorKind State :=
  if a < memSize then .ok { s with mem := Memory.write s.mem a v } else .error .outOfBounds

/-! ### Registers (10_state.md §1) -/

/-- `x[r]` (10_state.md R21). -/
def readReg (s : State) (r : Reg) : Byte := s.regs[r]

/-- `x[r] <- v`: the low 8 bits of `v` are stored (10_state.md R21). -/
def writeReg (r : Reg) (v : Int) (s : State) : State := { s with regs := s.regs.set r (u8 v) }

/-- The register a register operand below 8 names (00_scope.md R12). -/
def regOf (r : Byte) (h : r.toNat < nreg) : Reg := ⟨r.toNat, h⟩

/-- `checkReg(r)` (00_scope.md R12), answering the register the byte names. -/
def checkReg (r : Byte) : Except ErrorKind Reg :=
  if h : r.toNat < nreg then .ok (regOf r h) else .error .invalidRegister

/-! ### The stack primitives (20_memory.md §3) -/

/-- `x[7] <- u8(x[7] - 1)`, the first half of a push (20_memory.md R46). -/
def decSp (s : State) : State := writeReg sp ((readReg s sp).toNat - 1) s

/-- The address a push from `s` writes: the new SP (20_memory.md R46). -/
def pushSlot (s : State) : Nat := (readReg (decSp s) sp).toNat

/-- `push(v)`: SP goes down by 1 modulo 256, then `v` is written at the new SP (20_memory.md R46). -/
def push (v : Byte) (s : State) : Except ErrorKind State := memWrite (pushSlot s) v (decSp s)

/-- `pop()`: the byte at SP is read, then SP goes up by 1 if it is below 255 (20_memory.md R47). -/
def pop (s : State) : Except ErrorKind (Byte × State) :=
  match memRead s (readReg s sp).toNat with
  | .error e => .error e
  | .ok v =>
    if (readReg s sp).toNat < spReset.toNat then .ok (v, writeReg sp ((readReg s sp).toNat + 1) s) else .ok (v, s)

/-! ### Program counter, output, halt -/

/-- `pc <- target` (10_state.md R24, R25). -/
def setPc (target : Nat) (s : State) : State := { s with pc := target }

/-- `out <- out ++ [v]` (10_state.md R34). -/
def emit (v : Byte) (s : State) : State := { s with out := s.out ++ [v] }

/-- `halted <- true` (10_state.md R32). -/
def halt (s : State) : State := { s with halted := true }

/-! ### Taking an error (60_exceptions.md §2) -/

/-- Error entry: `error` is set to the kind and nothing else changes; `pc` stays at the instruction
(60_exceptions.md R181, R184, R185). There is no return from it (R187). -/
def raise (e : ErrorKind) (s : State) : Outcome := .next { s with error := some e }

/-! ### The end of a step -/

/-- What an execute phase leaves: the state, and whether it executed a `pc <- target` (40_execution_cycle.md R96). -/
structure Executed where
  state     : State
  pcWritten : Bool
  deriving DecidableEq, Repr

/-- An execute phase that wrote no `pc`. -/
def stays (s : State) : Executed := { state := s, pcWritten := false }

/-- An execute phase that ended with `pc <- target`. -/
def jumps (target : Nat) (s : State) : Executed := { state := setPc target s, pcWritten := true }

/-- The end of a step that began in `s`, for an instruction of `len` bytes: an error is taken from `s`, so that no
write of the step takes effect (60_exceptions.md R185); otherwise `pc` advances by `len` unless the execute phase wrote
it (40_execution_cycle.md R97). -/
def retire (len : Nat) (s : State) : Except ErrorKind Executed → Outcome
  | .error e => raise e s
  | .ok x => .next (if x.pcWritten then x.state else setPc (x.state.pc + len) x.state)

end Sys2Proof.Machine
end

