-- ==== Sys2Proof/Machine/Operands.lean ====
section
/-! DEFINITION. The four operand forms (spec/30_encoding.md R64): the checks of the register operands before the
execute phase (40_execution_cycle.md R95), and the length each form advances by (R97). -/

namespace Sys2Proof.Machine

/-- A register operand, checked. -/
def onReg (r : Byte) (phase : Reg → Except ErrorKind Executed) : Except ErrorKind Executed :=
  match checkReg r with
  | .error e => .error e
  | .ok i => phase i

/-- Form Z: no operand. -/
def formZ (s : State) (phase : Except ErrorKind Executed) : Outcome :=
  retire (Format.z.operandCount + 1) s phase

/-- Form R: one register operand. -/
def formR (r : Byte) (s : State) (phase : Reg → Except ErrorKind Executed) : Outcome :=
  retire (Format.r.operandCount + 1) s (onReg r phase)

/-- Form RR: two register operands, the first checked first. -/
def formRR (a b : Byte) (s : State) (phase : Reg → Reg → Except ErrorKind Executed) : Outcome :=
  retire (Format.rr.operandCount + 1) s (onReg a fun i => onReg b fun j => phase i j)

/-- Form RI: a register operand and an immediate, which is the whole byte and is not checked (30_encoding.md R65). -/
def formRI (r imm : Byte) (s : State) (phase : Reg → Byte → Except ErrorKind Executed) : Outcome :=
  retire (Format.ri.operandCount + 1) s (onReg r fun i => phase i imm)

end Sys2Proof.Machine
end

