-- ==== Sys2Proof/Machine/Alu.lean ====
section
/-! DEFINITION. The ALU and its five instructions ADD, SUB, MUL, DIV, CMP (spec/41_alu.md). -/

namespace Sys2Proof.Machine

/-- The exact integer results before masking (41_alu.md R120). -/
def aluSum (x y : Byte) : Int := x.toNat + y.toNat

def aluDifference (x y : Byte) : Int := (x.toNat : Int) - y.toNat

def aluProduct (x y : Byte) : Int := x.toNat * y.toNat

/-- `floor_div` (00_scope.md §5), for a divisor that is not 0. -/
def aluQuotient (x y : Byte) : Int := ((x.toNat / y.toNat : Nat) : Int)

/-- `apply(operation, regA, regB)`, the ALU's contract (41_alu.md): the five operations, and UnsupportedOperation for
every other one, which no instruction asks for (41_alu.md R121). `mode` is CMP_MODE. -/
def aluApply (mode : CmpMode) (op : Mnemonic) (a b : Reg) (s : State) : Except ErrorKind State :=
  let va := readReg s a
  let vb := readReg s b
  match op with
  | .add => .ok (writeReg a (aluSum va vb) s)
  | .sub => .ok (writeReg a (aluDifference va vb) s)
  | .mul => .ok (writeReg a (aluProduct va vb) s)
  | .div => .ok (writeReg a (aluQuotient va vb) s)
  | .cmp => .ok (setFl (compareFlags mode va vb) s)
  | .hlt => .error .unsupportedOperation
  | .ret => .error .unsupportedOperation
  | .prn => .error .unsupportedOperation
  | .push => .error .unsupportedOperation
  | .pop => .error .unsupportedOperation
  | .call => .error .unsupportedOperation
  | .jmp => .error .unsupportedOperation
  | .jeq => .error .unsupportedOperation
  | .jne => .error .unsupportedOperation
  | .ldi => .error .unsupportedOperation

/-- The execute phase of an ALU instruction: the ALU's result, no `pc` written. -/
def aluPhase (mode : CmpMode) (op : Mnemonic) (a b : Reg) (s : State) : Except ErrorKind Executed :=
  match aluApply mode op a b s with
  | .error e => .error e
  | .ok s' => .ok (stays s')

/-- ADD: `x[a] <- u8(x[a] + x[b])` (41_alu.md R110). -/
def execAdd (a b : Byte) (s : State) : Outcome :=
  formRR a b s fun i j => aluPhase specConfig.cmpMode .add i j s

/-- SUB: `x[a] <- u8(x[a] - x[b])` (41_alu.md R112). -/
def execSub (a b : Byte) (s : State) : Outcome :=
  formRR a b s fun i j => aluPhase specConfig.cmpMode .sub i j s

/-- MUL: `x[a] <- u8(x[a] * x[b])` (41_alu.md R114). -/
def execMul (a b : Byte) (s : State) : Outcome :=
  formRR a b s fun i j => aluPhase specConfig.cmpMode .mul i j s

/-- DIV: DivideByZero if `x[b] = 0`, raised before the ALU is invoked; else `x[a] <- floor_div(x[a], x[b])`
(41_alu.md R116). -/
def execDiv (a b : Byte) (s : State) : Outcome :=
  formRR a b s fun i j =>
    if readReg s j = 0 then .error .divideByZero else aluPhase specConfig.cmpMode .div i j s

/-- CMP under a given CMP_MODE (41_alu.md R118, R119). -/
def execCmpIn (mode : CmpMode) (a b : Byte) (s : State) : Outcome :=
  formRR a b s fun i j => aluPhase mode .cmp i j s

/-- CMP under the spec's CMP_MODE (41_alu.md R118, R119). -/
def execCmp (a b : Byte) (s : State) : Outcome := execCmpIn specConfig.cmpMode a b s

end Sys2Proof.Machine
end

