-- ==== Sys2Proof/Machine/Control.lean ====
section
/-! DEFINITION. JMP, JEQ, JNE, CALL, RET (spec/44_control_transfer.md). -/

namespace Sys2Proof.Machine

/-- JMP: `pc <- x[r]` (44_control_transfer.md R150). -/
def execJmp (r : Byte) (s : State) : Outcome :=
  formR r s fun i => .ok (jumps (readReg s i).toNat s)

/-- JEQ: `if FL[0] = 1: pc <- x[r]` (44_control_transfer.md R152). -/
def execJeq (r : Byte) (s : State) : Outcome :=
  formR r s fun i => .ok (if flagE s then jumps (readReg s i).toNat s else stays s)

/-- JNE: `if FL[0] = 0: pc <- x[r]` (44_control_transfer.md R154). -/
def execJne (r : Byte) (s : State) : Outcome :=
  formR r s fun i => .ok (if flagE s then stays s else jumps (readReg s i).toNat s)

/-- CALL: OutOfBounds if `pc + 2` does not fit a byte, else `push(pc + 2)` and then `pc <- x[r]`, the target read after
the push (44_control_transfer.md R156, R158; D10, D11). -/
def execCall (r : Byte) (s : State) : Outcome :=
  formR r s fun i =>
    if s.pc + 2 > 255 then .error .outOfBounds
    else
      match push (u8 (s.pc + 2)) s with
      | .error e => .error e
      | .ok s' => .ok (jumps (readReg s' i).toNat s')

/-- RET: `pc <- pop()` (44_control_transfer.md R160). -/
def execRet (s : State) : Outcome :=
  formZ s
    (match pop s with
    | .error e => .error e
    | .ok (v, s') => .ok (jumps v.toNat s'))

end Sys2Proof.Machine
end

