-- ==== Sys2Proof/Machine/Halt.lean ====
section
/-! DEFINITION. HLT (spec/45_halt.md). -/

namespace Sys2Proof.Machine

/-- HLT: `halted <- true`; `pc` then advances by 1 (45_halt.md R170, D15). -/
def execHlt (s : State) : Outcome := formZ s (.ok (stays (halt s)))

end Sys2Proof.Machine
end

