-- ==== Sys2Proof/Machine/LoadPrint.lean ====
section
/-! DEFINITION. LDI and PRN (spec/42_load_and_print.md). -/

namespace Sys2Proof.Machine

/-- LDI: `x[r] <- imm` (42_load_and_print.md R130). -/
def execLdi (r imm : Byte) (s : State) : Outcome :=
  formRI r imm s fun i v => .ok (stays (writeReg i v.toNat s))

/-- PRN: `out <- out ++ [x[r]]` (42_load_and_print.md R132). -/
def execPrn (r : Byte) (s : State) : Outcome :=
  formR r s fun i => .ok (stays (emit (readReg s i) s))

end Sys2Proof.Machine
end

