-- ==== Sys2Proof/Machine/Stack.lean ====
section
/-! DEFINITION. PUSH and POP (spec/43_stack.md). -/

namespace Sys2Proof.Machine

/-- PUSH: `push(x[r])`, the register read before SP changes (43_stack.md R140, D12). -/
def execPush (r : Byte) (s : State) : Outcome :=
  formR r s fun i =>
    match push (readReg s i) s with
    | .error e => .error e
    | .ok s' => .ok (stays s')

/-- POP: `x[r] <- pop()`, the register written after pop's own SP update (43_stack.md R142, D13). -/
def execPop (r : Byte) (s : State) : Outcome :=
  formR r s fun i =>
    match pop s with
    | .error e => .error e
    | .ok (v, s') => .ok (stays (writeReg i v.toNat s'))

end Sys2Proof.Machine
end

