-- ==== Sys2Proof/Machine/Cycle.lean ====
section
/-! DEFINITION. The fetch-decode-execute cycle (spec/40_execution_cycle.md), under any configuration. -/

namespace Sys2Proof.Machine

/-- The memory byte at an address, where the address exists. -/
def byteAt (s : State) (a : Nat) : Option Byte :=
  if a < memSize then some (Memory.read s.mem a) else none

/-- The error a failed decode raises: a byte past the end of memory is OutOfBounds (40_execution_cycle.md R91, R93), an
opcode not in the table UnknownOpcode (30_encoding.md R68). -/
def decodeErrorKind : DecodeError → ErrorKind
  | .missingByte _ => .outOfBounds
  | .unknownOpcode _ => .unknownOpcode

/-- The two reads EAGER_OPERAND_FETCH adds after the opcode fetch: `pc+1`, then `pc+2`, for every opcode
(40_execution_cycle.md R93, D5). -/
def eagerReads (s : State) : Except ErrorKind Unit :=
  match memRead s s.pc with
  | .error e => .error e
  | .ok _ =>
    match memRead s (s.pc + 1) with
    | .error e => .error e
    | .ok _ =>
      match memRead s (s.pc + 2) with
      | .error e => .error e
      | .ok _ => .ok ()

/-- Fetch and decode: the instruction at `pc`, or the first error of 60_exceptions.md R186 numbers 1 to 4
(40_execution_cycle.md R90 to R93, R98). -/
def fetch (c : Config) (s : State) : Except ErrorKind Instr :=
  match (if c.eagerOperandFetch then eagerReads s else .ok ()) with
  | .error e => .error e
  | .ok _ =>
    match decodeFrom c.opcodeTable fun k => byteAt s (s.pc + k) with
    | .error e => .error (decodeErrorKind e)
    | .ok i => .ok i

/-- `step()` (40_execution_cycle.md R98), around a given execution of one instruction. The machine steps only while it
is running (R90). -/
def cycle (c : Config) (execute : Instr → State → Outcome) (s : State) : Outcome :=
  match s.status with
  | .halted => .fault .halted
  | .failed e => .fault (.failed e)
  | .running =>
    match fetch c s with
    | .error e => raise e s
    | .ok i => execute i s

/-- Execution under any configuration: only CMP depends on it (41_alu.md R119). -/
def execUnder (c : Config) (i : Instr) (s : State) : Outcome :=
  match i with
  | .hlt => execHlt s
  | .ret => execRet s
  | .prn r => execPrn r s
  | .push r => execPush r s
  | .pop r => execPop r s
  | .call r => execCall r s
  | .jmp r => execJmp r s
  | .jeq r => execJeq r s
  | .jne r => execJne r s
  | .ldi r imm => execLdi r imm s
  | .add a b => execAdd a b s
  | .sub a b => execSub a b s
  | .mul a b => execMul a b s
  | .div a b => execDiv a b s
  | .cmp a b => execCmpIn c.cmpMode a b s

/-- One step under any configuration (00_scope.md R10). -/
def stepUnder (c : Config) (s : State) : Outcome := cycle c (execUnder c) s

/-- The bytes stored from an address upward; one past the end of memory has no place and is dropped. -/
def storeBytes : List Byte → Nat → Memory → Memory
  | [], _, m => m
  | b :: bs, a, m => storeBytes bs (a + 1) (if a < memSize then Memory.write m a b else m)

/-- The bytes of memory from an address upward, at most `n`, as far as memory goes. -/
def bytesFrom (s : State) : (n a : Nat) → List Byte
  | 0, _ => []
  | n + 1, a =>
    match byteAt s a with
    | none => []
    | some b => b :: bytesFrom s n (a + 1)

end Sys2Proof.Machine
end

