-- ==== Sys2Proof/Machine/Step.lean ====
section
/-! DEFINITION. One step of the CORE at the spec's configuration (spec/40_execution_cycle.md R98), and the placing of a
word where it fetches next. -/

namespace Sys2Proof.Machine

/-- `step()`. -/
def step (s : State) : Host.Outcome State Fault Refusal := cycle specConfig exec s

/-- `s` with a table word stored at `pc`, where the next step fetches (log entry 19). -/
def State.withFetchWord (s : State) (nbits w : Nat) : State :=
  { s with mem := storeBytes (tableWordBytes nbits w) s.pc s.mem }

end Sys2Proof.Machine
end

