-- ==== Sys2Proof/Machine/Interface.lean ====
section
/-! DEFINITION. The host interface `construct`, `load`, `run` (spec/70_reset_and_hazards.md §1). The host acts only
between runs (R204), so none of these is part of a step. -/

namespace Sys2Proof.Machine

/-- `construct()` (70_reset_and_hazards.md R200). -/
def construct : State := State.reset

/-- The byte write port, used only by `load` (70_reset_and_hazards.md R206). -/
def writePort (a : Nat) (b : Byte) (s : State) : State := { s with mem := storeBytes [b] a s.mem }

/-- The image written through the port from address `a` upward, left to right (70_reset_and_hazards.md R201). -/
def loadFrom : List Byte → Nat → State → State
  | [], _, s => s
  | b :: bs, a, s => loadFrom bs (a + 1) (writePort a b s)

/-- `load(bytes)`: OutOfBounds and nothing written for more than 256 bytes (70_reset_and_hazards.md R201, D19); refused
on a machine whose run has ended (93_implementation_defined.md U14). -/
def load (bytes : List Byte) (s : State) : Outcome :=
  match s.status with
  | .running => if bytes.length > memSize then .fault .loadOutOfBounds else .next (loadFrom bytes 0 s)
  | .halted => .refused .loadAfterRun
  | .failed _ => .refused .loadAfterRun

/-- What `run()` has come to after so many steps: it returned Ok, it returned an error kind, or it goes on
(70_reset_and_hazards.md R202, R203). -/
inductive RunResult where
  | ok (final : State)
  | error (kind : ErrorKind) (final : State)
  | goesOn (s : State)
  deriving DecidableEq, Repr

/-- The run loop, for at most `fuel` steps (40_execution_cycle.md R99). The fuel is the reader's, not the machine's
(93_implementation_defined.md U6). -/
def runUnder (c : Config) : Nat → State → RunResult
  | 0, s =>
    match s.status with
    | .halted => .ok s
    | .failed e => .error e s
    | .running => .goesOn s
  | fuel + 1, s =>
    match s.status with
    | .halted => .ok s
    | .failed e => .error e s
    | .running =>
      match stepUnder c s with
      | .next t => runUnder c fuel t
      | .fault _ => .goesOn s
      | .refused _ => .goesOn s

/-- `run()`, the input `start`: admitted only on a running machine (70_reset_and_hazards.md R202, D24). -/
def start (c : Config) (fuel : Nat) (s : State) : Host.Outcome RunResult Fault Refusal :=
  match s.status with
  | .running => .next (runUnder c fuel s)
  | .halted => .refused .runNotAdmitted
  | .failed _ => .refused .runNotAdmitted

end Sys2Proof.Machine
end

