-- ==== Sys2Proof/Safety.lean ====
section
/-! DEFINITION. What claims about runs and about what an instruction leaves alone are stated in: the three ends of a
run (spec/70_reset_and_hazards.md R203), a safe run, the invariant of every state a run reaches, and the frame. -/

namespace Sys2Proof.Machine

/-! ### Runs -/

/-- End (a): the run from `s` returns Ok and leaves `t`. -/
def HaltsAt (c : Config) (s t : State) : Prop := ∃ n, runUnder c n s = .ok t

/-- End (b): the run from `s` returns the kind `e` and leaves `t`. -/
def FailsAt (c : Config) (s : State) (e : ErrorKind) (t : State) : Prop := ∃ n, runUnder c n s = .error e t

/-- End (c): the run from `s` goes on for ever. -/
def Diverges (c : Config) (s : State) : Prop := ∀ n, ∃ t, runUnder c n s = .goesOn t

/-- A safe run: no step of it raises an error. -/
def SafeRun (c : Config) (s : State) : Prop := ∀ e t, ¬ FailsAt c s e t

/-! ### The invariant -/

/-- What every state a run reaches satisfies: memory in canonical form; `pc` at most 258 (10_state.md R25); FL one of
0, 0b001, 0b010, 0b100 (10_state.md R26, R27); never both halted and failed (70_reset_and_hazards.md R203). -/
structure Inv (s : State) : Prop where
  memory : Memory.wf s.mem = true
  pc     : s.pc ≤ 258
  flags  : s.fl = 0 ∨ s.fl = flEqual ∨ s.fl = flGreater ∨ s.fl = flLess
  ending : s.halted = false ∨ s.error = none

/-! ### Frames -/

/-- Every byte of memory reads the same. -/
def SameMemory (s t : State) : Prop := ∀ a, Memory.read t.mem a = Memory.read s.mem a

/-- Every byte of memory but the one at `d` reads the same. -/
def SameMemoryBut (d : Nat) (s t : State) : Prop := ∀ a, a ≠ d → Memory.read t.mem a = Memory.read s.mem a

/-- Every register but those listed reads the same. -/
def SameRegsBut (ds : List Reg) (s t : State) : Prop := ∀ r, r ∉ ds → readReg t r = readReg s r

/-- Every flag, and the rest of FL, is the same. -/
def SameFlags (s t : State) : Prop := t.fl = s.fl

/-- The machine is as halted, as failed, and has emitted the same as before. -/
def SameEnd (s t : State) : Prop := t.halted = s.halted ∧ t.error = s.error ∧ t.out = s.out

end Sys2Proof.Machine
end

