-- ==== Sys2Proof/Certificates/Slice0/Obligations.lean ====
section
/-! DEFINITION. The statements for the provers. A docstring names the rule of spec/ each one comes from, and says where
a clause rests on a decision or an inference that the spec marks as its own. -/

open Sys2Proof Sys2Proof.Machine

/-! ### Reset, registers, memory, stack -/

/-- 10_state.md R31, 70_reset_and_hazards.md R200. The values of `halted`, `error` and `out` are the spec's own
inference there (log entry 17). -/
def Obligations.ResetLeavesTheStatedValues : Prop :=
  construct = State.reset ∧
  (∀ r : Reg, readReg State.reset r = if r = 7 then 255 else 0) ∧
  (∀ a, a < 256 → memRead State.reset a = .ok 0) ∧
  State.reset.pc = 0 ∧ State.reset.fl = 0 ∧
  State.reset.halted = false ∧ State.reset.error = none ∧ State.reset.out = []

/-- 10_state.md R21: a write stores the low 8 bits of any integer, a read gives the last value written, and a register
never written gives its reset value. -/
def Obligations.RegisterWriteMasksToOneByte : Prop :=
  (∀ (s : State) (r : Reg) (v : Int),
    ((readReg (writeReg r v s) r).toNat : Int) = v % 256 ∧ SameRegsBut [r] s (writeReg r v s)) ∧
  ∀ r : Reg, readReg State.reset r = if r = 7 then 255 else 0

/-- 20_memory.md R41. -/
def Obligations.MemReadIsBoundsChecked : Prop :=
  ∀ (s : State) (a : Nat),
    (a < 256 → memRead s a = .ok (Memory.read s.mem a)) ∧ (256 ≤ a → memRead s a = .error .outOfBounds)

/-- 20_memory.md R42, R51, R52 (R52 is the spec's own inference): a write inside memory is read back and changes only
the byte written; a write outside it raises and writes nothing. -/
def Obligations.MemoryReadAfterWrite : Prop :=
  ∀ (s : State) (a : Nat) (v : Byte), Memory.wf s.mem = true →
    (a < 256 → ∃ t, memWrite a v s = .ok t ∧ memRead t a = .ok v ∧ SameMemoryBut a s t ∧ t = { s with mem := t.mem }) ∧
    (256 ≤ a → memWrite a v s = .error .outOfBounds)

/-- The model's own form of memory (log entry 20): canonical memories that read the same at every one of the 256
addresses of 20_memory.md R40 are equal data. -/
def Obligations.CanonicalMemoriesThatReadAlikeAreEqual : Prop :=
  ∀ m m' : Memory, Memory.wf m = true → Memory.wf m' = true →
    (∀ a, a < 256 → Memory.read m a = Memory.read m' a) → m = m'

/-- 20_memory.md R46. That the write never raises, and that SP wraps from 0 to 255, are the spec's inference there. -/
def Obligations.PushDecrementsSpAndWrites : Prop :=
  ∀ (s : State) (v : Byte), Memory.wf s.mem = true →
    ∃ t, push v s = .ok t ∧ pushSlot s = ((readReg s sp).toNat + 255) % 256 ∧ (readReg t sp).toNat = pushSlot s ∧
      Memory.read t.mem (pushSlot s) = v ∧ SameMemoryBut (pushSlot s) s t ∧ SameRegsBut [sp] s t ∧
      SameFlags s t ∧ SameEnd s t ∧ t.pc = s.pc

/-- 20_memory.md R47. -/
def Obligations.PopReadsAndAdvancesSpBelow255 : Prop :=
  ∀ s : State, ∃ v t, pop s = .ok (v, t) ∧ v = Memory.read s.mem (readReg s sp).toNat ∧
    ((readReg s sp).toNat < 255 → (readReg t sp).toNat = (readReg s sp).toNat + 1) ∧
    ((readReg s sp).toNat = 255 → (readReg t sp).toNat = 255) ∧
    SameRegsBut [sp] s t ∧ SameMemory s t ∧ SameFlags s t ∧ SameEnd s t ∧ t.pc = s.pc

/-! ### Encoding -/

/-- 30_encoding.md R62. -/
def Obligations.DecodeFieldsAreBitPositions : Prop :=
  ∀ ir : Byte, operandCount ir = ir.toNat / 64 ∧ (isALU ir = true ↔ ir.toNat / 32 % 2 = 1) ∧
    (noAutoAdvance ir = true ↔ ir.toNat / 16 % 2 = 1)

/-- 30_encoding.md R64 to R67: for every instruction, every operand byte and every admissible opcode table. The full
match of the opcode byte is the spec's decision D6 (log entry 6). -/
def Obligations.DecodeOfEncodeIsTheInstruction : Prop :=
  ∀ (t : OpcodeTable) (i : Instr) (rest : List Byte), t.wf = true → decode t (encode t i ++ rest) = .ok (i, rest)

/-- 30_encoding.md R64 to R68: bytes that decode to an instruction are its encoding, so that each word has one meaning
and no unlisted word has one. That the whole opcode byte is matched is the spec's decision D6 (log entry 6); which tables
are admissible is the model's reading of D1 (log entry 23). -/
def Obligations.OnlyEncodingsDecode : Prop :=
  ∀ (t : OpcodeTable) (bytes : List Byte) (i : Instr) (rest : List Byte), t.wf = true →
    decode t bytes = .ok (i, rest) → bytes = encode t i ++ rest

/-- 30_encoding.md R60: one opcode byte and as many operand bytes as its top two bits say, 0, 1 or 2, with the next
instruction following without padding. -/
def Obligations.InstructionIsOpcodeThenCountedOperands : Prop :=
  ∀ (t : OpcodeTable) (i j : Instr), t.wf = true →
    (∃ ir ops, encode t i = ir :: ops ∧ ops.length = operandCount ir ∧ operandCount ir ≤ 2) ∧
    decode t (encode t i ++ encode t j) = .ok (i, encode t j)

/-- 30_encoding.md R68, with the fifteen bytes of R66. The byte values are PRESUMED (D1, log entry 1), and that every
other byte is illegal in every group is decision D6 (log entry 6). -/
def Obligations.UnlistedOpcodesAreUnknown : Prop :=
  ∀ ir : Byte, ir ∉ ([0x01, 0x11, 0x47, 0x45, 0x46, 0x50, 0x54, 0x55, 0x56, 0x82, 0xA0, 0xA1, 0xA2, 0xA3, 0xA7] : List Byte) →
    (∀ rest, decode specConfig.opcodeTable (ir :: rest) = .error (.unknownOpcode ir)) ∧
    ∀ s : State, s.status = .running → byteAt s s.pc = some ir →
      step s = .next { s with error := some .unknownOpcode }

/-- Words written out from 30_encoding.md R66 and 95_test_vectors.md, at least one per family (the byte values are
PRESUMED, log entry 1). -/
def Obligations.SampleWordsDecode : Prop :=
  decode specConfig.opcodeTable [0b00000001] = .ok (.hlt, []) ∧
  decode specConfig.opcodeTable [0b00010001] = .ok (.ret, []) ∧
  decode specConfig.opcodeTable [0b01000111, 2] = .ok (.prn 2, []) ∧
  decode specConfig.opcodeTable [0b01000101, 0] = .ok (.push 0, []) ∧
  decode specConfig.opcodeTable [0b01010000, 1] = .ok (.call 1, []) ∧
  decode specConfig.opcodeTable [0b10000010, 2, 37] = .ok (.ldi 2 37, []) ∧
  decode specConfig.opcodeTable [0b10100011, 0, 1] = .ok (.div 0 1, []) ∧
  decode specConfig.opcodeTable [0b00000000] = .error (.unknownOpcode 0)

/-! ### The cycle -/

/-- 40_execution_cycle.md R98: when the bytes at `pc` decode to an instruction, well formed or not, a running machine's
step is its execution; nothing is added around it. -/
def Obligations.StepRunsTheDecodedInstruction : Prop :=
  ∀ (s : State) (i : Instr) (rest : List Byte), s.status = .running →
    decode specConfig.opcodeTable (bytesFrom s maxLength s.pc) = .ok (i, rest) → step s = exec i s

/-- 00_scope.md R10: the step, and the execution of one instruction, are those of the configuration at the values the
spec gives the parameters (decisions D1, D3, D5; log entries 1, 3, 4). -/
def Obligations.StepIsTheConfiguredStep : Prop :=
  specConfig.cmpMode = .unsigned ∧ specConfig.eagerOperandFetch = false ∧ specConfig.opcodeTable.wf = true ∧
  ∀ s : State, step s = stepUnder specConfig s ∧ ∀ i, exec i s = execUnder specConfig i s

/-- 60_exceptions.md R186 numbers 1, 3 and 4 (the order is decision D7, log entry 7). -/
def Obligations.FetchErrorsComeInOrder : Prop :=
  ∀ s : State, s.status = .running →
    (256 ≤ s.pc → step s = .next { s with error := some .outOfBounds }) ∧
    ∀ ir, byteAt s s.pc = some ir →
      (specConfig.opcodeTable.lookup ir = none → step s = .next { s with error := some .unknownOpcode }) ∧
      ∀ m, specConfig.opcodeTable.lookup ir = some m → 256 ≤ s.pc + m.format.operandCount →
        step s = .next { s with error := some .outOfBounds }

/-- 40_execution_cycle.md R93, 60_exceptions.md R186 number 2 (decision D5, log entry 4): eager operand fetch raises
OutOfBounds within two bytes of the end of memory and changes nothing below. -/
def Obligations.EagerFetchMattersOnlyAtTheTop : Prop :=
  ∀ (c : Config) (s : State), s.status = .running →
    (s.pc + 2 < 256 →
      stepUnder { c with eagerOperandFetch := true } s = stepUnder { c with eagerOperandFetch := false } s) ∧
    (256 ≤ s.pc + 2 →
      stepUnder { c with eagerOperandFetch := true } s = .next { s with error := some .outOfBounds })

/-- 40_execution_cycle.md R99: the engine steps exactly while it is neither halted nor failed, and a program that never
halts and never fails runs for ever. -/
def Obligations.EngineStopsOnlyAtHaltOrError : Prop :=
  ∀ (c : Config) (s : State),
    (s.halted = false → s.error = none → ∃ t, stepUnder c s = .next t) ∧
    (∀ t, stepUnder c s = .next t → s.halted = false ∧ s.error = none) ∧
    ((∀ t, ¬ HaltsAt c s t) → SafeRun c s → Diverges c s)

/-- 60_exceptions.md R184, R185: the failing step sets `error`, no further step is taken, and the run returns that kind.
That the failing step leaves everything else alone is decision D8 (log entry 8). -/
def Obligations.ErrorAbortsTheRun : Prop :=
  ∀ (c : Config) (s t : State) (e : ErrorKind), stepUnder c s = .next t → t.error = some e →
    t = { s with error := some e } ∧ (∀ u, stepUnder c t ≠ .next u) ∧ FailsAt c s e t

/-- 41_alu.md R121 (the spec's own inference): no step raises UnsupportedOperation; the ALU raises it for an operation
outside its five. -/
def Obligations.UnsupportedOperationIsNeverRaised : Prop :=
  (∀ (c : Config) (s t : State), stepUnder c s = .next t → t.error ≠ some .unsupportedOperation) ∧
  ∀ (mode : CmpMode) (m : Mnemonic) (a b : Reg) (s : State), m ∉ [Mnemonic.add, .sub, .mul, .div, .cmp] →
    aluApply mode m a b s = .error .unsupportedOperation

/-- 10_state.md R32: in one step `halted` becomes true exactly by HLT; no instruction clears it; a halted machine takes
no step. -/
def Obligations.HaltedIsSetOnlyByHlt : Prop :=
  (∀ (c : Config) (s t : State), stepUnder c s = .next t → (t.halted = true ↔ fetch c s = .ok .hlt)) ∧
  (∀ (c : Config) (i : Instr) (s t : State), execUnder c i s = .next t →
    t.halted = if i = .hlt then true else s.halted) ∧
  ∀ (c : Config) (s t : State), s.halted = true → stepUnder c s ≠ .next t

/-- 10_state.md R33: `error` is set by a step that raises, never cleared, and ends the engine. That a step that sets it
changes nothing else is decision D8 (60_exceptions.md R185, log entry 8). -/
def Obligations.ErrorIsNeverCleared : Prop :=
  (∀ (c : Config) (s t : State), s.error ≠ none → stepUnder c s ≠ .next t) ∧
  (∀ (c : Config) (i : Instr) (s t : State), execUnder c i s = .next t → s.error ≠ none → t.error ≠ none) ∧
  ∀ (c : Config) (s t : State), stepUnder c s = .next t → t.error ≠ s.error →
    ∃ e, t = { s with error := some e }

/-- 10_state.md R34: PRN with a valid register appends that register's byte, nothing else appends, and no instruction
reads `out`. -/
def Obligations.OutputIsAppendedOnlyByPrnAndNeverRead : Prop :=
  (∀ (c : Config) (s t : State), stepUnder c s = .next t → t.out ≠ s.out → ∃ r, fetch c s = .ok (.prn r)) ∧
  ∀ (c : Config) (i : Instr) (s t : State), execUnder c i s = .next t →
    ∃ emitted : List Byte, t.out = s.out ++ emitted ∧
      (∀ r h, i = .prn r → emitted = [readReg s (regOf r h)]) ∧
      ((∀ r, i = .prn r → 8 ≤ r.toNat) → emitted = []) ∧
      ∀ o, execUnder c i { s with out := o } = .next { t with out := o ++ emitted }

/-- 10_state.md R27. The values compared are CMP_MODE's (41_alu.md R118: `compareKey`). -/
def Obligations.FlagsAreWrittenOnlyByCmp : Prop :=
  (∀ (c : Config) (s t : State), stepUnder c s = .next t → t.fl ≠ s.fl → ∃ a b, fetch c s = .ok (.cmp a b)) ∧
  (∀ (c : Config) (i : Instr) (s t : State), execUnder c i s = .next t → (∀ a b, i ≠ .cmp a b) → SameFlags s t) ∧
  ∀ (c : Config) (a b : Byte) (s : State) (ha : a.toNat < nreg) (hb : b.toNat < nreg),
    ∃ t, execUnder c (.cmp a b) s = .next t ∧
      ((compareKey c.cmpMode (readReg s (regOf a ha)) < compareKey c.cmpMode (readReg s (regOf b hb)) ∧ t.fl = 0b100) ∨
       (compareKey c.cmpMode (readReg s (regOf a ha)) > compareKey c.cmpMode (readReg s (regOf b hb)) ∧ t.fl = 0b010) ∨
       (compareKey c.cmpMode (readReg s (regOf a ha)) = compareKey c.cmpMode (readReg s (regOf b hb)) ∧ t.fl = 0b001))

/-- 10_state.md R26, column "read by": only JEQ and JNE depend on FL, and they on bit 0 alone. With any other FL before
it, each other instruction leaves what it would have left, FL itself passed through, except that CMP on registers leaves
the FL it computes. -/
def Obligations.FlagsAreReadOnlyByJeqAndJne : Prop :=
  ∀ (c : Config) (i : Instr) (s t : State) (f : Byte), execUnder c i s = .next t →
    (i.mnemonic ∉ [Mnemonic.jeq, .jne, .cmp] ∨ ¬ i.WellFormed →
      execUnder c i { s with fl := f } = .next { t with fl := f }) ∧
    (i.mnemonic = .cmp → i.WellFormed → execUnder c i { s with fl := f } = .next t) ∧
    (∀ r, i = .jeq r ∨ i = .jne r → f.getLsbD 0 = s.fl.getLsbD 0 →
      execUnder c i { s with fl := f } = .next { t with fl := f })

/-- 00_scope.md R12: a register operand below 8 names that register; an instruction with any other raises
InvalidRegister before it does anything else. On an untaken branch this is decision D9 (log entry 9), and before the
checks of CALL and DIV decision D7 (log entry 7). -/
def Obligations.RegisterOperandsAreCheckedFirst : Prop :=
  (∀ r : Byte, (∀ h : r.toNat < 8, checkReg r = .ok ⟨r.toNat, h⟩) ∧ (8 ≤ r.toNat → checkReg r = .error .invalidRegister)) ∧
  ∀ (c : Config) (i : Instr) (s : State), (∃ r ∈ i.regOperands, 8 ≤ r.toNat) →
    execUnder c i s = .next { s with error := some .invalidRegister }

/-- 20_memory.md R50 (the spec's own inference): PUSH and CALL write the one byte at the new SP, and no other
instruction writes memory. -/
def Obligations.OnlyPushAndCallWriteMemory : Prop :=
  ∀ (c : Config) (i : Instr) (s t : State), execUnder c i s = .next t →
    (i.mnemonic ∈ [Mnemonic.push, .call] → SameMemoryBut (pushSlot s) s t) ∧
    (i.mnemonic ∉ [Mnemonic.push, .call] → SameMemory s t)

/-- 10_state.md R22 (the spec's own inference): a register changes only as the destination of LDI, POP, ADD, SUB, MUL
or DIV, or as SP by PUSH, POP, CALL or RET. -/
def Obligations.RegistersChangeOnlyAsDestinationOrSp : Prop :=
  ∀ (c : Config) (i : Instr) (s t : State) (r : Reg), execUnder c i s = .next t → readReg t r ≠ readReg s r →
    (i.mnemonic ∈ [Mnemonic.ldi, .pop, .add, .sub, .mul, .div] ∧ i.operands.head?.map BitVec.toNat = some r.val) ∨
    (i.mnemonic ∈ [Mnemonic.push, .pop, .call, .ret] ∧ r = sp)

/-- 40_execution_cycle.md R97 and 10_state.md R25 (decisions D2 and D4; log entries 2 and 5): where the instruction
raises nothing, `pc` advances by its length, without wrapping, unless it writes `pc`, and then to a byte. An untaken JEQ
or JNE writes no `pc` and advances (90_conflicts.md C1). -/
def Obligations.PcAdvancesUnlessWritten : Prop :=
  ∀ (c : Config) (i : Instr) (s t : State), s.error = none → execUnder c i s = .next t → t.error = none →
    (i.mnemonic ∉ [Mnemonic.jmp, .jeq, .jne, .call, .ret] → t.pc = s.pc + i.length) ∧
    (i.mnemonic ∈ [Mnemonic.jmp, .call, .ret] → t.pc < 256) ∧
    (i.mnemonic = .jeq → if flagE s then t.pc < 256 else t.pc = s.pc + i.length) ∧
    (i.mnemonic = .jne → if flagE s then t.pc = s.pc + i.length else t.pc < 256)

/-! ### Invariant and runs -/

/-- 10_state.md R31: the reset state satisfies the invariant. -/
def Obligations.InvariantHoldsAtReset : Prop := Inv State.reset

/-- From every state that satisfies the invariant, reached or not, a step leads to one that does: memory stays
canonical (the model's form, log entry 20) and below 256 (20_memory.md R40), `pc` at most 258 (10_state.md R25,
decision D2), FL one of its four values (R26, the spec's inference), never both halted and failed
(70_reset_and_hazards.md R203). Under every configuration. -/
def Obligations.StepKeepsTheInvariant : Prop :=
  ∀ s : State, Inv s → (∀ t, step s = .next t → Inv t) ∧ ∀ c t, stepUnder c s = .next t → Inv t

/-- 70_reset_and_hazards.md R201: `load` keeps the invariant too. -/
def Obligations.LoadKeepsTheInvariant : Prop :=
  ∀ (bytes : List Byte) (s t : State), Inv s → load bytes s = .next t → Inv t

/-- 70_reset_and_hazards.md R203, R205 (the spec's own inferences): a run halts, fails or diverges, in exactly one of
these ways and with one end. -/
def Obligations.RunEndsInExactlyOneWay : Prop :=
  ∀ (c : Config) (s : State),
    ((∃ t, HaltsAt c s t) ∨ (∃ e t, FailsAt c s e t) ∨ Diverges c s) ∧
    (∀ t u, HaltsAt c s t → HaltsAt c s u → t = u) ∧
    (∀ e t e' t', FailsAt c s e t → FailsAt c s e' t' → e = e' ∧ t = t') ∧
    (∀ t e u, HaltsAt c s t → ¬ FailsAt c s e u) ∧
    (∀ t, HaltsAt c s t → ¬ Diverges c s ∧ t.halted = true ∧ t.error = none) ∧
    (∀ e t, FailsAt c s e t → ¬ Diverges c s ∧ t.error = some e)

/-! ### The host's operations -/

/-- 70_reset_and_hazards.md R201; the oversized load is decision D19 (log entry 14). -/
def Obligations.LoadWritesTheImageOnly : Prop :=
  ∀ (bytes : List Byte) (s : State), s.status = .running → Memory.wf s.mem = true →
    (bytes.length ≤ 256 → ∃ t, load bytes s = .next t ∧
      (∀ a (h : a < bytes.length), Memory.read t.mem a = bytes[a]) ∧
      (∀ a, bytes.length ≤ a → Memory.read t.mem a = Memory.read s.mem a) ∧ t = { s with mem := t.mem }) ∧
    (256 < bytes.length → load bytes s = .fault .loadOutOfBounds)

/-- 93_implementation_defined.md U14 (decision D24, log entry 15). -/
def Obligations.HostOperationsAreRefusedAfterTheRun : Prop :=
  ∀ (c : Config) (fuel : Nat) (bytes : List Byte) (s : State), s.status ≠ .running →
    load bytes s = .refused .loadAfterRun ∧ start c fuel s = .refused .runNotAdmitted

/-! ### The instructions -/

/-- ADD (41_alu.md R110). -/
def Obligations.AddWritesTheSumModulo256 : Prop :=
  ∀ (s : State) (a b : Byte) (ha : a.toNat < nreg) (hb : b.toNat < nreg),
    ∃ t, exec (.add a b) s = .next t ∧
      (readReg t (regOf a ha)).toNat = ((readReg s (regOf a ha)).toNat + (readReg s (regOf b hb)).toNat) % 256 ∧
      SameRegsBut [regOf a ha] s t ∧ SameFlags s t ∧ SameMemory s t ∧ SameEnd s t ∧ t.pc = s.pc + 3

/-- SUB (41_alu.md R112): the difference modulo 256, negative ones wrapping. -/
def Obligations.SubWritesTheDifferenceModulo256 : Prop :=
  ∀ (s : State) (a b : Byte) (ha : a.toNat < nreg) (hb : b.toNat < nreg),
    ∃ t, exec (.sub a b) s = .next t ∧
      ((readReg t (regOf a ha)).toNat : Int) =
        ((readReg s (regOf a ha)).toNat - (readReg s (regOf b hb)).toNat : Int) % 256 ∧
      SameRegsBut [regOf a ha] s t ∧ SameFlags s t ∧ SameMemory s t ∧ SameEnd s t ∧ t.pc = s.pc + 3

/-- MUL (41_alu.md R114): the low 8 bits of the product. -/
def Obligations.MulWritesTheLowByteOfTheProduct : Prop :=
  ∀ (s : State) (a b : Byte) (ha : a.toNat < nreg) (hb : b.toNat < nreg),
    ∃ t, exec (.mul a b) s = .next t ∧
      (readReg t (regOf a ha)).toNat = ((readReg s (regOf a ha)).toNat * (readReg s (regOf b hb)).toNat) % 256 ∧
      SameRegsBut [regOf a ha] s t ∧ SameFlags s t ∧ SameMemory s t ∧ SameEnd s t ∧ t.pc = s.pc + 3

/-- DIV (41_alu.md R116): the quotient rounded down, for a divisor that is not 0. -/
def Obligations.DivWritesTheFloorOfTheQuotient : Prop :=
  ∀ (s : State) (a b : Byte) (ha : a.toNat < nreg) (hb : b.toNat < nreg), (readReg s (regOf b hb)).toNat ≠ 0 →
    ∃ t, exec (.div a b) s = .next t ∧
      (readReg t (regOf a ha)).toNat * (readReg s (regOf b hb)).toNat ≤ (readReg s (regOf a ha)).toNat ∧
      (readReg s (regOf a ha)).toNat < ((readReg t (regOf a ha)).toNat + 1) * (readReg s (regOf b hb)).toNat ∧
      SameRegsBut [regOf a ha] s t ∧ SameFlags s t ∧ SameMemory s t ∧ SameEnd s t ∧ t.pc = s.pc + 3

/-- DIV with a zero divisor (41_alu.md R116): DivideByZero, nothing else changed. -/
def Obligations.DivByZeroRaisesAndChangesNothing : Prop :=
  ∀ (s : State) (a b : Byte) (_ : a.toNat < nreg) (hb : b.toNat < nreg), (readReg s (regOf b hb)).toNat = 0 →
    exec (.div a b) s = .next { s with error := some .divideByZero }

/-- CMP (41_alu.md R118), under the spec's CMP_MODE, unsigned (decision D3, log entry 3). -/
def Obligations.CmpSetsExactlyOneFlag : Prop :=
  ∀ (s : State) (a b : Byte) (ha : a.toNat < nreg) (hb : b.toNat < nreg),
    ∃ t, exec (.cmp a b) s = .next t ∧
      ((readReg s (regOf a ha)).toNat < (readReg s (regOf b hb)).toNat →
        t.fl = 0b100 ∧ flagL t = true ∧ flagG t = false ∧ flagE t = false) ∧
      ((readReg s (regOf a ha)).toNat > (readReg s (regOf b hb)).toNat →
        t.fl = 0b010 ∧ flagL t = false ∧ flagG t = true ∧ flagE t = false) ∧
      ((readReg s (regOf a ha)).toNat = (readReg s (regOf b hb)).toNat →
        t.fl = 0b001 ∧ flagL t = false ∧ flagG t = false ∧ flagE t = true) ∧
      SameRegsBut [] s t ∧ SameMemory s t ∧ SameEnd s t ∧ t.pc = s.pc + 3

/-- 41_alu.md R119 (decision D3, log entry 3): the two modes differ exactly when one operand is below 128 and the other
is not, and then they give opposite orders. -/
def Obligations.CompareModesDifferExactlyAcross128 : Prop :=
  ∀ x y : Byte,
    (compareFlags .unsigned x y ≠ compareFlags .signed x y ↔ ¬ (x.toNat < 128 ↔ y.toNat < 128)) ∧
    (¬ (x.toNat < 128 ↔ y.toNat < 128) → compareFlags .signed x y = compareFlags .unsigned y x)

/-- LDI (42_load_and_print.md R130). -/
def Obligations.LdiWritesTheImmediate : Prop :=
  ∀ (s : State) (r imm : Byte) (h : r.toNat < nreg),
    ∃ t, exec (.ldi r imm) s = .next t ∧ readReg t (regOf r h) = imm ∧
      SameRegsBut [regOf r h] s t ∧ SameFlags s t ∧ SameMemory s t ∧ SameEnd s t ∧ t.pc = s.pc + 3

/-- PRN (42_load_and_print.md R132). -/
def Obligations.PrnAppendsTheRegister : Prop :=
  ∀ (s : State) (r : Byte) (h : r.toNat < nreg),
    ∃ t, exec (.prn r) s = .next t ∧ t.out = s.out ++ [readReg s (regOf r h)] ∧
      SameRegsBut [] s t ∧ SameFlags s t ∧ SameMemory s t ∧ t.halted = s.halted ∧ t.error = s.error ∧ t.pc = s.pc + 2

/-- PUSH (43_stack.md R140). For R7 the byte pushed is SP before the push (decision D12, log entry 11). -/
def Obligations.PushStoresTheRegister : Prop :=
  ∀ (s : State) (r : Byte) (h : r.toNat < nreg), Memory.wf s.mem = true →
    ∃ t, exec (.push r) s = .next t ∧ pushSlot s = ((readReg s sp).toNat + 255) % 256 ∧
      (readReg t sp).toNat = pushSlot s ∧ Memory.read t.mem (pushSlot s) = readReg s (regOf r h) ∧
      SameMemoryBut (pushSlot s) s t ∧ SameRegsBut [sp] s t ∧ SameFlags s t ∧ SameEnd s t ∧ t.pc = s.pc + 2

/-- POP (43_stack.md R142). For R7 the popped byte is SP's final value (decision D13, log entry 11). -/
def Obligations.PopLoadsTheRegister : Prop :=
  ∀ (s : State) (r : Byte) (h : r.toNat < nreg),
    ∃ t, exec (.pop r) s = .next t ∧ readReg t (regOf r h) = Memory.read s.mem (readReg s sp).toNat ∧
      (regOf r h ≠ sp →
        (readReg t sp).toNat = if (readReg s sp).toNat < 255 then (readReg s sp).toNat + 1 else 255) ∧
      SameRegsBut [regOf r h, sp] s t ∧ SameMemory s t ∧ SameFlags s t ∧ SameEnd s t ∧ t.pc = s.pc + 2

/-- JMP (44_control_transfer.md R150). -/
def Obligations.JmpGoesToTheRegister : Prop :=
  ∀ (s : State) (r : Byte) (h : r.toNat < nreg),
    ∃ t, exec (.jmp r) s = .next t ∧ t.pc = (readReg s (regOf r h)).toNat ∧
      SameRegsBut [] s t ∧ SameFlags s t ∧ SameMemory s t ∧ SameEnd s t

/-- JEQ (44_control_transfer.md R152); the advance of the untaken branch follows 90_conflicts.md C1 (decision D4, log
entry 5). -/
def Obligations.JeqBranchesOnEqual : Prop :=
  ∀ (s : State) (r : Byte) (h : r.toNat < nreg),
    ∃ t, exec (.jeq r) s = .next t ∧
      (s.fl.getLsbD 0 = true → t.pc = (readReg s (regOf r h)).toNat) ∧ (s.fl.getLsbD 0 = false → t.pc = s.pc + 2) ∧
      SameRegsBut [] s t ∧ SameFlags s t ∧ SameMemory s t ∧ SameEnd s t

/-- JNE (44_control_transfer.md R154); the advance of the untaken branch follows 90_conflicts.md C1 (decision D4, log
entry 5). -/
def Obligations.JneBranchesOnNotEqual : Prop :=
  ∀ (s : State) (r : Byte) (h : r.toNat < nreg),
    ∃ t, exec (.jne r) s = .next t ∧
      (s.fl.getLsbD 0 = false → t.pc = (readReg s (regOf r h)).toNat) ∧ (s.fl.getLsbD 0 = true → t.pc = s.pc + 2) ∧
      SameRegsBut [] s t ∧ SameFlags s t ∧ SameMemory s t ∧ SameEnd s t

/-- CALL (44_control_transfer.md R156), for a return address that fits a byte. CALL R7 jumps to the decremented SP
(decision D11, log entry 11). -/
def Obligations.CallPushesTheReturnAddress : Prop :=
  ∀ (s : State) (r : Byte) (h : r.toNat < nreg), Memory.wf s.mem = true → s.pc + 2 ≤ 255 →
    ∃ t, exec (.call r) s = .next t ∧ pushSlot s = ((readReg s sp).toNat + 255) % 256 ∧
      (readReg t sp).toNat = pushSlot s ∧ (Memory.read t.mem (pushSlot s)).toNat = s.pc + 2 ∧
      (regOf r h ≠ sp → t.pc = (readReg s (regOf r h)).toNat) ∧ (regOf r h = sp → t.pc = pushSlot s) ∧
      SameMemoryBut (pushSlot s) s t ∧ SameRegsBut [sp] s t ∧ SameFlags s t ∧ SameEnd s t

/-- CALL whose return address does not fit a byte (44_control_transfer.md R158, decision D10, log entry 10). -/
def Obligations.CallNearTheTopRaisesOutOfBounds : Prop :=
  ∀ (s : State) (r : Byte), r.toNat < nreg → 255 < s.pc + 2 →
    exec (.call r) s = .next { s with error := some .outOfBounds }

/-- RET (44_control_transfer.md R160). -/
def Obligations.RetGoesToThePoppedByte : Prop :=
  ∀ s : State,
    ∃ t, exec .ret s = .next t ∧ t.pc = (Memory.read s.mem (readReg s sp).toNat).toNat ∧
      (readReg t sp).toNat = (if (readReg s sp).toNat < 255 then (readReg s sp).toNat + 1 else 255) ∧
      SameRegsBut [sp] s t ∧ SameMemory s t ∧ SameFlags s t ∧ SameEnd s t

/-- HLT (45_halt.md R170). That `pc` advances by 1 is decision D15 (log entry 12). -/
def Obligations.HltSetsHalted : Prop :=
  ∀ s : State,
    ∃ t, exec .hlt s = .next t ∧ t.halted = true ∧ t.pc = s.pc + 1 ∧ t.error = s.error ∧ t.out = s.out ∧
      SameRegsBut [] s t ∧ SameFlags s t ∧ SameMemory s t

/-! ### Instructions together -/

/-- 43_stack.md R140 and R142 (source example S6): a POP after a PUSH gives the pushed value, and SP comes back, but for
SP = 0, where the push wraps to 255 and the pop does not advance (20_memory.md R46, R47). For PUSH R7 the pushed value is
SP before the push (decision D12, log entry 11). -/
def Obligations.PopAfterPushGivesThePushedValue : Prop :=
  ∀ (s : State) (r q : Byte) (hr : r.toNat < nreg) (hq : q.toNat < nreg), Memory.wf s.mem = true → regOf q hq ≠ sp →
    ∃ t u, exec (.push r) s = .next t ∧ exec (.pop q) t = .next u ∧
      readReg u (regOf q hq) = readReg s (regOf r hr) ∧
      (readReg u sp).toNat = (if (readReg s sp).toNat = 0 then 255 else (readReg s sp).toNat) ∧
      SameRegsBut [regOf q hq, sp] s u ∧ u.pc = s.pc + 4

/-- 44_control_transfer.md R156 and R160 (source example S7): from whatever state a subroutine ends in, with SP and the
byte it points at as the CALL left them, RET goes to the byte after the CALL, and SP comes back unless it was 0. -/
def Obligations.RetAfterCallResumesAfterTheCall : Prop :=
  ∀ (s : State) (r : Byte), r.toNat < nreg → Memory.wf s.mem = true → s.pc + 2 ≤ 255 →
    ∃ t, exec (.call r) s = .next t ∧
      ∀ u : State, readReg u sp = readReg t sp → Memory.read u.mem (pushSlot s) = Memory.read t.mem (pushSlot s) →
        ∃ v, exec .ret u = .next v ∧ v.pc = s.pc + 2 ∧
          (readReg v sp).toNat = (if (readReg s sp).toNat = 0 then 255 else (readReg s sp).toNat) ∧
          SameRegsBut [sp] u v ∧ SameMemory u v
end

