-- ==== Sys2Proof/Laws/State.lean ====
section
/-! SUPPORT. One lemma per field per update of State, and what the narrowing functions do. -/

namespace Sys2Proof

@[simp] theorem u8_toNat_cast (b : Byte) : u8 (b.toNat : Int) = b := by simp [u8]

theorem u8_toNat (v : Int) : (u8 v).toNat = (v % 256).toNat := by simp [u8, BitVec.toNat_ofInt]

namespace Machine

section Updates
variable (s : State) (r : Reg) (v : Int) (p : Nat) (b : Byte)

@[simp] theorem writeReg_mem : (writeReg r v s).mem = s.mem := rfl
@[simp] theorem writeReg_pc : (writeReg r v s).pc = s.pc := rfl
@[simp] theorem writeReg_fl : (writeReg r v s).fl = s.fl := rfl
@[simp] theorem writeReg_halted : (writeReg r v s).halted = s.halted := rfl
@[simp] theorem writeReg_error : (writeReg r v s).error = s.error := rfl
@[simp] theorem writeReg_out : (writeReg r v s).out = s.out := rfl

@[simp] theorem setPc_mem : (setPc p s).mem = s.mem := rfl
@[simp] theorem setPc_regs : (setPc p s).regs = s.regs := rfl
@[simp] theorem setPc_pc : (setPc p s).pc = p := rfl
@[simp] theorem setPc_fl : (setPc p s).fl = s.fl := rfl
@[simp] theorem setPc_halted : (setPc p s).halted = s.halted := rfl
@[simp] theorem setPc_error : (setPc p s).error = s.error := rfl
@[simp] theorem setPc_out : (setPc p s).out = s.out := rfl

@[simp] theorem emit_mem : (emit b s).mem = s.mem := rfl
@[simp] theorem emit_regs : (emit b s).regs = s.regs := rfl
@[simp] theorem emit_pc : (emit b s).pc = s.pc := rfl
@[simp] theorem emit_fl : (emit b s).fl = s.fl := rfl
@[simp] theorem emit_halted : (emit b s).halted = s.halted := rfl
@[simp] theorem emit_error : (emit b s).error = s.error := rfl
@[simp] theorem emit_out : (emit b s).out = s.out ++ [b] := rfl

@[simp] theorem halt_mem : (halt s).mem = s.mem := rfl
@[simp] theorem halt_regs : (halt s).regs = s.regs := rfl
@[simp] theorem halt_pc : (halt s).pc = s.pc := rfl
@[simp] theorem halt_fl : (halt s).fl = s.fl := rfl
@[simp] theorem halt_halted : (halt s).halted = true := rfl
@[simp] theorem halt_error : (halt s).error = s.error := rfl
@[simp] theorem halt_out : (halt s).out = s.out := rfl

@[simp] theorem setFl_mem : (setFl b s).mem = s.mem := rfl
@[simp] theorem setFl_regs : (setFl b s).regs = s.regs := rfl
@[simp] theorem setFl_pc : (setFl b s).pc = s.pc := rfl
@[simp] theorem setFl_fl : (setFl b s).fl = b := rfl
@[simp] theorem setFl_halted : (setFl b s).halted = s.halted := rfl
@[simp] theorem setFl_error : (setFl b s).error = s.error := rfl
@[simp] theorem setFl_out : (setFl b s).out = s.out := rfl

@[simp] theorem stays_state : (stays s).state = s := rfl
@[simp] theorem stays_pcWritten : (stays s).pcWritten = false := rfl
@[simp] theorem jumps_state : (jumps p s).state = setPc p s := rfl
@[simp] theorem jumps_pcWritten : (jumps p s).pcWritten = true := rfl

end Updates

/-! ### Reading a register after an update -/

@[simp] theorem readReg_writeReg_same (r : Reg) (v : Int) (s : State) : readReg (writeReg r v s) r = u8 v := by
  simp [readReg, writeReg]

theorem readReg_writeReg_ne {r q : Reg} (h : q ≠ r) (v : Int) (s : State) :
    readReg (writeReg r v s) q = readReg s q := by
  have : (r : Nat) ≠ q := fun e => h (Fin.ext e.symm)
  simp [readReg, writeReg, Vector.getElem_set_ne, this]

theorem readReg_writeReg (r q : Reg) (v : Int) (s : State) :
    readReg (writeReg r v s) q = if q = r then u8 v else readReg s q := by
  split
  · next h => subst h; simp
  · next h => exact readReg_writeReg_ne h v s

@[simp] theorem readReg_setPc (p : Nat) (s : State) (q : Reg) : readReg (setPc p s) q = readReg s q := rfl
@[simp] theorem readReg_emit (b : Byte) (s : State) (q : Reg) : readReg (emit b s) q = readReg s q := rfl
@[simp] theorem readReg_halt (s : State) (q : Reg) : readReg (halt s) q = readReg s q := rfl
@[simp] theorem readReg_setFl (b : Byte) (s : State) (q : Reg) : readReg (setFl b s) q = readReg s q := rfl
@[simp] theorem readReg_withMem (s : State) (m : Memory) (q : Reg) : readReg { s with mem := m } q = readReg s q := rfl
@[simp] theorem readReg_withError (s : State) (e : Option ErrorKind) (q : Reg) :
    readReg { s with error := e } q = readReg s q := rfl

/-! ### Status -/

theorem status_running_iff (s : State) : s.status = .running ↔ s.halted = false ∧ s.error = none := by
  cases s with | mk m r p f h e o => cases e <;> cases h <;> simp [State.status]

theorem status_halted_iff (s : State) : s.status = .halted ↔ s.halted = true ∧ s.error = none := by
  cases s with | mk m r p f h e o => cases e <;> cases h <;> simp [State.status]

theorem status_failed_iff (s : State) (e : ErrorKind) : s.status = .failed e ↔ s.error = some e := by
  cases s with | mk m r p f h e' o => cases e' <;> cases h <;> simp [State.status]

end Machine
end Sys2Proof
end

