-- ==== Sys2Proof/Laws/Memory.lean ====
section
/-! SUPPORT. What memory operations do: read after write, and the canonical form kept. -/

namespace Sys2Proof.Machine

@[simp] theorem Memory.read_consCell (a b : Nat) (v : Byte) (m : Memory) :
    Memory.read (Memory.consCell a v m) b =
      if v = unlistedByte then Memory.read m b else if b = a then v else Memory.read m b := by
  unfold Memory.consCell
  split <;> simp [Memory.read]

theorem Memory.wfFrom_cons {low k : Nat} {b : Byte} {m : Memory} (h : Memory.wfFrom low ((k, b) :: m) = true) :
    low ≤ k ∧ k < memSize ∧ b ≠ unlistedByte ∧ Memory.wfFrom (k + 1) m = true := by
  simpa [Memory.wfFrom, and_assoc] using h

theorem Memory.wfFrom_mono {low low' : Nat} (hl : low' ≤ low) :
    ∀ {m : Memory}, Memory.wfFrom low m = true → Memory.wfFrom low' m = true
  | [], _ => rfl
  | (k, b) :: m, h => by
    obtain ⟨h1, h2, h3, h4⟩ := Memory.wfFrom_cons h
    simp only [Memory.wfFrom, Bool.and_eq_true, decide_eq_true_eq, bne_iff_ne]
    exact ⟨⟨⟨by omega, h2⟩, h3⟩, h4⟩

/-- Below its lowest address a canonical memory lists nothing. -/
theorem Memory.read_of_wfFrom : ∀ {m : Memory} {low a : Nat}, Memory.wfFrom low m = true → a < low →
    Memory.read m a = unlistedByte
  | [], _, _, _, _ => rfl
  | (k, b) :: m, low, a, h, ha => by
    obtain ⟨h1, -, -, h4⟩ := Memory.wfFrom_cons h
    have hk : a ≠ k := by omega
    simp only [Memory.read, hk, if_false]
    exact Memory.read_of_wfFrom h4 (by omega)

/-- From 256 on a canonical memory lists nothing. -/
theorem Memory.read_of_memSize_le : ∀ {m : Memory} {low a : Nat}, Memory.wfFrom low m = true → memSize ≤ a →
    Memory.read m a = unlistedByte
  | [], _, _, _, _ => rfl
  | (k, b) :: m, low, a, h, ha => by
    obtain ⟨-, h2, -, h4⟩ := Memory.wfFrom_cons h
    have hk : a ≠ k := by omega
    simp only [Memory.read, hk, if_false]
    exact Memory.read_of_memSize_le h4 ha

/-- Read after write, in a canonical memory. -/
theorem Memory.read_write_from : ∀ {m : Memory} {low : Nat} (a b : Nat) (v : Byte), Memory.wfFrom low m = true →
    Memory.read (Memory.write m a v) b = if b = a then v else Memory.read m b
  | [], _, a, b, v, _ => by
    by_cases hv : v = unlistedByte <;> by_cases hb : b = a <;> simp [Memory.write, Memory.read, hv, hb]
  | (k, c) :: m, low, a, b, v, h => by
    obtain ⟨-, -, -, h4⟩ := Memory.wfFrom_cons h
    simp only [Memory.write]
    split
    · next hak =>
      have hread : ∀ x, x = a → Memory.read ((k, c) :: m) x = unlistedByte := fun x hx => by
        have : x ≠ k := by omega
        simp only [Memory.read, this, if_false]
        exact Memory.read_of_wfFrom h4 (by omega)
      by_cases hv : v = unlistedByte <;> by_cases hb : b = a <;> simp [hv, hb, hread]
    · split
      · next hak =>
        subst hak
        have hread : Memory.read m a = unlistedByte := Memory.read_of_wfFrom h4 (by omega)
        by_cases hv : v = unlistedByte <;> by_cases hb : b = a <;> simp [hv, hb, hread, Memory.read]
      · next hlt hne =>
        by_cases hbk : b = k
        · have : b ≠ a := by omega
          simp only [Memory.read, hbk, if_true]
          rw [if_neg (by omega)]
        · simp only [Memory.read, hbk, if_false]
          exact Memory.read_write_from a b v h4

theorem Memory.read_write {m : Memory} (h : Memory.wf m = true) (a b : Nat) (v : Byte) :
    Memory.read (Memory.write m a v) b = if b = a then v else Memory.read m b :=
  Memory.read_write_from a b v h

/-- A write reads back unless it wrote the unlisted byte, in any memory, canonical or not; elsewhere nothing changes. -/
theorem Memory.read_write_ne : ∀ (m : Memory) {a b : Nat} (v : Byte), b ≠ a →
    Memory.read (Memory.write m a v) b = Memory.read m b
  | [], a, b, v, h => by by_cases hv : v = unlistedByte <;> simp [Memory.write, Memory.read, hv, h]
  | (k, c) :: m, a, b, v, h => by
    simp only [Memory.write]
    split
    · by_cases hv : v = unlistedByte <;> simp [hv, h]
    · split
      · next hak =>
        subst hak
        by_cases hv : v = unlistedByte <;> simp [hv, h, Memory.read]
      · simp only [Memory.read, Memory.read_write_ne m v h]

theorem Memory.wfFrom_consCell {low a : Nat} {v : Byte} {m : Memory} (hl : low ≤ a) (ha : a < memSize)
    (h : Memory.wfFrom (a + 1) m = true) : Memory.wfFrom low (Memory.consCell a v m) = true := by
  unfold Memory.consCell
  split
  · exact Memory.wfFrom_mono (by omega) h
  · next hv =>
    simp only [Memory.wfFrom, Bool.and_eq_true, decide_eq_true_eq, bne_iff_ne]
    exact ⟨⟨⟨hl, ha⟩, hv⟩, h⟩

/-- A write keeps the canonical form. -/
theorem Memory.wfFrom_write : ∀ {m : Memory} {low a : Nat} {v : Byte}, Memory.wfFrom low m = true → low ≤ a →
    a < memSize → Memory.wfFrom low (Memory.write m a v) = true
  | [], low, a, v, _, hl, ha => Memory.wfFrom_consCell hl ha rfl
  | (k, c) :: m, low, a, v, h, hl, ha => by
    obtain ⟨h1, h2, h3, h4⟩ := Memory.wfFrom_cons h
    simp only [Memory.write]
    split
    · next hak =>
      refine Memory.wfFrom_consCell hl ha ?_
      simp only [Memory.wfFrom, Bool.and_eq_true, decide_eq_true_eq, bne_iff_ne]
      exact ⟨⟨⟨by omega, h2⟩, h3⟩, h4⟩
    · split
      · next hak => subst hak; exact Memory.wfFrom_consCell hl ha h4
      · simp only [Memory.wfFrom, Bool.and_eq_true, decide_eq_true_eq, bne_iff_ne]
        exact ⟨⟨⟨h1, h2⟩, h3⟩, Memory.wfFrom_write h4 (by omega) ha⟩

theorem Memory.wf_write {m : Memory} {a : Nat} {v : Byte} (h : Memory.wf m = true) (ha : a < memSize) :
    Memory.wf (Memory.write m a v) = true :=
  Memory.wfFrom_write h (Nat.zero_le a) ha

/-- Storing a run of bytes keeps the canonical form. -/
theorem wf_storeBytes : ∀ (bs : List Byte) (a : Nat) {m : Memory}, Memory.wf m = true →
    Memory.wf (storeBytes bs a m) = true
  | [], _, _, h => h
  | b :: bs, a, m, h => by
    simp only [storeBytes]
    split
    · next ha => exact wf_storeBytes bs (a + 1) (Memory.wf_write h ha)
    · exact wf_storeBytes bs (a + 1) h

theorem State.reset_memory_wf : Memory.wf State.reset.mem = true := rfl

/-! ### `MemRead` and `MemWrite` -/

theorem memRead_ok {s : State} {a : Nat} (h : a < memSize) : memRead s a = .ok (Memory.read s.mem a) := by
  simp [memRead, h]

theorem memRead_error {s : State} {a : Nat} (h : memSize ≤ a) : memRead s a = .error .outOfBounds := by
  simp [memRead, Nat.not_lt.mpr h]

theorem memWrite_ok {s : State} {a : Nat} (v : Byte) (h : a < memSize) :
    memWrite a v s = .ok { s with mem := Memory.write s.mem a v } := by
  simp [memWrite, h]

/-- A byte names an address that exists. -/
theorem toNat_lt_memSize (b : Byte) : b.toNat < memSize := b.isLt

/-! ### The stack primitives -/

@[simp] theorem decSp_mem (s : State) : (decSp s).mem = s.mem := rfl
@[simp] theorem decSp_pc (s : State) : (decSp s).pc = s.pc := rfl
@[simp] theorem decSp_fl (s : State) : (decSp s).fl = s.fl := rfl
@[simp] theorem decSp_halted (s : State) : (decSp s).halted = s.halted := rfl
@[simp] theorem decSp_error (s : State) : (decSp s).error = s.error := rfl
@[simp] theorem decSp_out (s : State) : (decSp s).out = s.out := rfl

theorem readReg_decSp_ne {q : Reg} (h : q ≠ sp) (s : State) : readReg (decSp s) q = readReg s q :=
  readReg_writeReg_ne h _ _

theorem readReg_decSp_sp (s : State) : (readReg (decSp s) sp).toNat = pushSlot s := rfl

theorem pushSlot_eq (s : State) : pushSlot s = ((readReg s sp).toNat + 255) % 256 := by
  have h := (readReg s sp).isLt
  simp only [pushSlot, decSp, readReg_writeReg_same, u8_toNat]
  omega

theorem pushSlot_lt (s : State) : pushSlot s < memSize := toNat_lt_memSize _

/-- The state after `push(v)`. -/
def pushed (v : Byte) (s : State) : State := { decSp s with mem := Memory.write s.mem (pushSlot s) v }

/-- Everything `push` can do: it never raises (20_memory.md R46). -/
theorem push_eq (v : Byte) (s : State) : push v s = .ok (pushed v s) := by
  simp [push, memWrite, pushSlot_lt, pushed]

@[simp] theorem pushed_mem (v : Byte) (s : State) : (pushed v s).mem = Memory.write s.mem (pushSlot s) v := rfl
@[simp] theorem pushed_pc (v : Byte) (s : State) : (pushed v s).pc = s.pc := rfl
@[simp] theorem pushed_fl (v : Byte) (s : State) : (pushed v s).fl = s.fl := rfl
@[simp] theorem pushed_halted (v : Byte) (s : State) : (pushed v s).halted = s.halted := rfl
@[simp] theorem pushed_error (v : Byte) (s : State) : (pushed v s).error = s.error := rfl
@[simp] theorem pushed_out (v : Byte) (s : State) : (pushed v s).out = s.out := rfl
@[simp] theorem readReg_pushed (v : Byte) (s : State) (q : Reg) : readReg (pushed v s) q = readReg (decSp s) q := rfl

/-- The byte `pop()` returns. -/
def topByte (s : State) : Byte := Memory.read s.mem (readReg s sp).toNat

/-- The state after `pop()`. -/
def popped (s : State) : State :=
  if (readReg s sp).toNat < 255 then writeReg sp ((readReg s sp).toNat + 1) s else s

/-- Everything `pop` can do: it never raises (20_memory.md R47). -/
theorem pop_eq (s : State) : pop s = .ok (topByte s, popped s) := by
  have h : (readReg s sp).toNat < memSize := toNat_lt_memSize _
  have hr : spReset.toNat = 255 := rfl
  simp only [pop, memRead, h, if_true, topByte, popped, hr]
  by_cases hs : (readReg s sp).toNat < 255 <;> simp only [hs, if_true, if_false]

@[simp] theorem popped_mem (s : State) : (popped s).mem = s.mem := by unfold popped; split <;> rfl
@[simp] theorem popped_pc (s : State) : (popped s).pc = s.pc := by unfold popped; split <;> rfl
@[simp] theorem popped_fl (s : State) : (popped s).fl = s.fl := by unfold popped; split <;> rfl
@[simp] theorem popped_halted (s : State) : (popped s).halted = s.halted := by unfold popped; split <;> rfl
@[simp] theorem popped_error (s : State) : (popped s).error = s.error := by unfold popped; split <;> rfl
@[simp] theorem popped_out (s : State) : (popped s).out = s.out := by unfold popped; split <;> rfl

theorem readReg_popped_ne {q : Reg} (h : q ≠ sp) (s : State) : readReg (popped s) q = readReg s q := by
  unfold popped
  split
  · exact readReg_writeReg_ne h _ _
  · rfl

theorem readReg_popped_sp (s : State) : (readReg (popped s) sp).toNat = min ((readReg s sp).toNat + 1) 255 := by
  have hb := (readReg s sp).isLt
  unfold popped
  split
  · simp only [readReg_writeReg_same, u8_toNat]; omega
  · omega

end Sys2Proof.Machine
end

