-- ==== Sys2Proof/Laws/Exec.lean ====
section
/-! SUPPORT. What one instruction can do, said once: each form, each meaning on valid operands, and the effect of every
instruction under any configuration. -/

namespace Sys2Proof.Machine

/-! ### The forms -/

theorem checkReg_ok {r : Byte} (h : r.toNat < nreg) : checkReg r = .ok (regOf r h) := by simp [checkReg, h]

theorem checkReg_error {r : Byte} (h : nreg ≤ r.toNat) : checkReg r = .error .invalidRegister := by
  simp [checkReg, Nat.not_lt.mpr h]

@[simp] theorem retire_error (len : Nat) (s : State) (e : ErrorKind) : retire len s (.error e) = raise e s := rfl

@[simp] theorem retire_stays (len : Nat) (s t : State) : retire len s (.ok (stays t)) = .next (setPc (t.pc + len) t) := rfl

@[simp] theorem retire_jumps (len p : Nat) (s t : State) : retire len s (.ok (jumps p t)) = .next (setPc p t) := rfl

theorem formR_ok {r : Byte} (h : r.toNat < nreg) (s : State) (phase : Reg → Except ErrorKind Executed) :
    formR r s phase = retire 2 s (phase (regOf r h)) := by
  simp [formR, onReg, checkReg_ok h, Format.operandCount]

theorem formR_error {r : Byte} (h : nreg ≤ r.toNat) (s : State) (phase : Reg → Except ErrorKind Executed) :
    formR r s phase = raise .invalidRegister s := by
  simp [formR, onReg, checkReg_error h]

theorem formRI_ok {r : Byte} (h : r.toNat < nreg) (imm : Byte) (s : State)
    (phase : Reg → Byte → Except ErrorKind Executed) :
    formRI r imm s phase = retire 3 s (phase (regOf r h) imm) := by
  simp [formRI, onReg, checkReg_ok h, Format.operandCount]

theorem formRI_error {r : Byte} (h : nreg ≤ r.toNat) (imm : Byte) (s : State)
    (phase : Reg → Byte → Except ErrorKind Executed) :
    formRI r imm s phase = raise .invalidRegister s := by
  simp [formRI, onReg, checkReg_error h]

theorem formRR_ok {a b : Byte} (ha : a.toNat < nreg) (hb : b.toNat < nreg) (s : State)
    (phase : Reg → Reg → Except ErrorKind Executed) :
    formRR a b s phase = retire 3 s (phase (regOf a ha) (regOf b hb)) := by
  simp [formRR, onReg, checkReg_ok ha, checkReg_ok hb, Format.operandCount]

theorem formRR_error {a b : Byte} (h : nreg ≤ a.toNat ∨ nreg ≤ b.toNat) (s : State)
    (phase : Reg → Reg → Except ErrorKind Executed) :
    formRR a b s phase = raise .invalidRegister s := by
  by_cases ha : a.toNat < nreg
  · have hb : nreg ≤ b.toNat := by omega
    simp [formRR, onReg, checkReg_ok ha, checkReg_error hb]
  · simp [formRR, onReg, checkReg_error (Nat.not_lt.mp ha)]

/-! ### The effect of each instruction that raises nothing -/

/-- The state each instruction leaves when it raises no error. -/
def Effect (c : Config) (i : Instr) (s t : State) : Prop :=
  match i with
  | .hlt => t = setPc (s.pc + 1) (halt s)
  | .ret => t = setPc (topByte s).toNat (popped s)
  | .prn r => ∃ h, t = setPc (s.pc + 2) (emit (readReg s (regOf r h)) s)
  | .push r => ∃ h, t = setPc (s.pc + 2) (pushed (readReg s (regOf r h)) s)
  | .pop r => ∃ h, t = setPc (s.pc + 2) (writeReg (regOf r h) (topByte s).toNat (popped s))
  | .call r => s.pc + 2 ≤ 255 ∧
      ∃ h, t = setPc (readReg (decSp s) (regOf r h)).toNat (pushed (u8 (s.pc + 2)) s)
  | .jmp r => ∃ h, t = setPc (readReg s (regOf r h)).toNat s
  | .jeq r => ∃ h, t = setPc (if flagE s then (readReg s (regOf r h)).toNat else s.pc + 2) s
  | .jne r => ∃ h, t = setPc (if flagE s then s.pc + 2 else (readReg s (regOf r h)).toNat) s
  | .ldi r imm => ∃ h, t = setPc (s.pc + 3) (writeReg (regOf r h) imm.toNat s)
  | .add a b => ∃ ha hb, t = setPc (s.pc + 3)
      (writeReg (regOf a ha) (aluSum (readReg s (regOf a ha)) (readReg s (regOf b hb))) s)
  | .sub a b => ∃ ha hb, t = setPc (s.pc + 3)
      (writeReg (regOf a ha) (aluDifference (readReg s (regOf a ha)) (readReg s (regOf b hb))) s)
  | .mul a b => ∃ ha hb, t = setPc (s.pc + 3)
      (writeReg (regOf a ha) (aluProduct (readReg s (regOf a ha)) (readReg s (regOf b hb))) s)
  | .div a b => ∃ ha hb, readReg s (regOf b hb) ≠ 0 ∧ t = setPc (s.pc + 3)
      (writeReg (regOf a ha) (aluQuotient (readReg s (regOf a ha)) (readReg s (regOf b hb))) s)
  | .cmp a b => ∃ ha hb, t = setPc (s.pc + 3)
      (setFl (compareFlags c.cmpMode (readReg s (regOf a ha)) (readReg s (regOf b hb))) s)

/-- When each error is raised by an instruction. -/
def Raises (i : Instr) (s : State) (e : ErrorKind) : Prop :=
  (e = .invalidRegister ∧ ¬ i.WellFormed) ∨
  (e = .outOfBounds ∧ i.WellFormed ∧ s.pc + 2 > 255 ∧ ∃ r, i = .call r) ∨
  (e = .divideByZero ∧ i.WellFormed ∧ ∃ a b, ∃ hb : b.toNat < nreg, i = .div a b ∧ readReg s (regOf b hb) = 0)

@[simp] theorem wellFormed_r (r : Byte) : [r].all regOperandOk = decide (r.toNat < nreg) := by simp [regOperandOk]

@[simp] theorem wellFormed_rr (a b : Byte) :
    [a, b].all regOperandOk = (decide (a.toNat < nreg) && decide (b.toNat < nreg)) := by simp [regOperandOk]

/-- Execution under the spec's configuration is `exec`. -/
@[simp] theorem execUnder_specConfig (i : Instr) (s : State) : execUnder specConfig i s = exec i s := by
  cases i <;> rfl

/-- An instruction with a register operand of 8 or more raises InvalidRegister. -/
theorem execUnder_of_not_wellFormed (c : Config) {i : Instr} (s : State) (h : ¬ i.WellFormed) :
    execUnder c i s = raise .invalidRegister s := by
  cases i with
  | hlt => simp [Instr.WellFormed, Instr.wellFormed, Instr.regOperands] at h
  | ret => simp [Instr.WellFormed, Instr.wellFormed, Instr.regOperands] at h
  | prn r | push r | pop r | call r | jmp r | jeq r | jne r =>
    simp only [Instr.WellFormed, Instr.wellFormed, Instr.regOperands, wellFormed_r, decide_eq_true_eq, Nat.not_lt] at h
    exact formR_error h s _
  | ldi r imm =>
    simp only [Instr.WellFormed, Instr.wellFormed, Instr.regOperands, wellFormed_r, decide_eq_true_eq, Nat.not_lt] at h
    exact formRI_error h imm s fun i v => .ok (stays (writeReg i v.toNat s))
  | add a b | sub a b | mul a b | div a b | cmp a b =>
    simp only [Instr.WellFormed, Instr.wellFormed, Instr.regOperands, wellFormed_rr, Bool.and_eq_true,
      decide_eq_true_eq] at h
    exact formRR_error (by omega) s _

/-- Everything an instruction can do: it raises an error for a reason of `Raises`, or it has its effect. -/
theorem execUnder_cases (c : Config) (i : Instr) (s : State) :
    (∃ e, Raises i s e ∧ execUnder c i s = raise e s) ∨ (∃ t, Effect c i s t ∧ execUnder c i s = .next t) := by
  by_cases hw : i.WellFormed
  case neg => exact .inl ⟨_, .inl ⟨rfl, hw⟩, execUnder_of_not_wellFormed c s hw⟩
  have hw' := hw
  cases i with
  | hlt => exact .inr ⟨_, rfl, rfl⟩
  | ret => exact .inr ⟨_, rfl, by simp [execUnder, execRet, formZ, pop_eq]⟩
  | prn r | push r | pop r | jmp r =>
    simp only [Instr.WellFormed, Instr.wellFormed, Instr.regOperands, wellFormed_r, decide_eq_true_eq] at hw
    exact .inr ⟨_, ⟨hw, rfl⟩, by
      simp [execUnder, execPrn, execPush, execPop, execJmp, formR_ok hw, push_eq, pop_eq]⟩
  | jeq r | jne r =>
    simp only [Instr.WellFormed, Instr.wellFormed, Instr.regOperands, wellFormed_r, decide_eq_true_eq] at hw
    refine .inr ⟨_, ⟨hw, rfl⟩, ?_⟩
    cases hE : flagE s <;> simp [execUnder, execJeq, execJne, formR_ok hw, hE]
  | call r =>
    simp only [Instr.WellFormed, Instr.wellFormed, Instr.regOperands, wellFormed_r, decide_eq_true_eq] at hw
    by_cases hp : s.pc + 2 > 255
    · exact .inl ⟨_, .inr (.inl ⟨rfl, hw', hp, r, rfl⟩), by simp [execUnder, execCall, formR_ok hw, hp]⟩
    · exact .inr ⟨_, ⟨by omega, hw, rfl⟩, by simp [execUnder, execCall, formR_ok hw, hp, push_eq]⟩
  | ldi r imm =>
    simp only [Instr.WellFormed, Instr.wellFormed, Instr.regOperands, wellFormed_r, decide_eq_true_eq] at hw
    exact .inr ⟨_, ⟨hw, rfl⟩, by simp [execUnder, execLdi, formRI_ok hw]⟩
  | add a b | sub a b | mul a b | cmp a b =>
    simp only [Instr.WellFormed, Instr.wellFormed, Instr.regOperands, wellFormed_rr, Bool.and_eq_true,
      decide_eq_true_eq] at hw
    exact .inr ⟨_, ⟨hw.1, hw.2, rfl⟩, by
      simp [execUnder, execAdd, execSub, execMul, execCmpIn, formRR_ok hw.1 hw.2, aluPhase, aluApply]⟩
  | div a b =>
    simp only [Instr.WellFormed, Instr.wellFormed, Instr.regOperands, wellFormed_rr, Bool.and_eq_true,
      decide_eq_true_eq] at hw
    by_cases hz : readReg s (regOf b hw.2) = 0
    · exact .inl ⟨_, .inr (.inr ⟨rfl, hw', a, b, hw.2, rfl, hz⟩), by
        simp [execUnder, execDiv, formRR_ok hw.1 hw.2, hz]⟩
    · exact .inr ⟨_, ⟨hw.1, hw.2, hz, rfl⟩, by
        simp only [execUnder, execDiv, formRR_ok hw.1 hw.2, if_neg hz, aluPhase, aluApply, retire_stays, writeReg_pc]⟩

/-- An instruction that has its effect keeps `error`. -/
theorem Effect.error_eq {c : Config} {i : Instr} {s t : State} (h : Effect c i s t) : t.error = s.error := by
  cases i with
  | hlt | ret => subst h; simp
  | prn r | push r | pop r | jmp r | jeq r | jne r | ldi r imm => obtain ⟨_, rfl⟩ := h; simp
  | call r => obtain ⟨_, _, rfl⟩ := h; simp
  | add a b | sub a b | mul a b | cmp a b => obtain ⟨_, _, rfl⟩ := h; simp
  | div a b => obtain ⟨_, _, _, rfl⟩ := h; simp

theorem Raises.ne_unsupported {i : Instr} {s : State} {e : ErrorKind} (h : Raises i s e) :
    e ≠ .unsupportedOperation := by
  rcases h with ⟨rfl, _⟩ | ⟨rfl, _⟩ | ⟨rfl, _⟩ <;> decide

/-- Where an instruction answers a next state, it raised an error or had its effect. -/
theorem execUnder_next_cases {c : Config} {i : Instr} {s t : State} (h : execUnder c i s = .next t) :
    (∃ e, Raises i s e ∧ t = { s with error := some e }) ∨ Effect c i s t := by
  rcases execUnder_cases c i s with ⟨e, he, h'⟩ | ⟨u, hu, h'⟩
  · rw [h] at h'; injection h' with h'; exact .inl ⟨e, he, h'⟩
  · rw [h] at h'; injection h' with h'; subst h'; exact .inr hu

/-- An effect asks for well-formed operands. -/
theorem Effect.wellFormed {c : Config} {i : Instr} {s t : State} (h : Effect c i s t) : i.WellFormed := by
  cases i with
  | hlt | ret => rfl
  | prn r | push r | pop r | jmp r | jeq r | jne r | ldi r imm =>
    obtain ⟨hr, _⟩ := h
    simpa [Instr.WellFormed, Instr.wellFormed, Instr.regOperands, regOperandOk] using hr
  | call r =>
    obtain ⟨_, hr, _⟩ := h
    simpa [Instr.WellFormed, Instr.wellFormed, Instr.regOperands, regOperandOk] using hr
  | add a b | sub a b | mul a b | cmp a b =>
    obtain ⟨ha, hb, _⟩ := h
    simp [Instr.WellFormed, Instr.wellFormed, Instr.regOperands, regOperandOk, ha, hb]
  | div a b =>
    obtain ⟨ha, hb, _⟩ := h
    simp [Instr.WellFormed, Instr.wellFormed, Instr.regOperands, regOperandOk, ha, hb]

/-- No instruction both raises and has an effect. -/
theorem Raises.not_effect {c : Config} {i : Instr} {s t : State} {e : ErrorKind} (h : Raises i s e) :
    ¬ Effect c i s t := by
  intro hE
  rcases h with ⟨_, h⟩ | ⟨_, _, hp, r, rfl⟩ | ⟨_, _, a, b, hb, rfl, hz⟩
  · exact h hE.wellFormed
  · have := hE.1; omega
  · obtain ⟨_, _, hz', _⟩ := hE; exact hz' hz

theorem Effect.unique {c : Config} {i : Instr} {s t u : State} (h : Effect c i s t) (h' : Effect c i s u) : t = u := by
  cases i with
  | hlt | ret => exact h.trans h'.symm
  | prn r | push r | pop r | jmp r | jeq r | jne r | ldi r imm => obtain ⟨_, rfl⟩ := h; obtain ⟨_, rfl⟩ := h'; rfl
  | call r => obtain ⟨_, _, rfl⟩ := h; obtain ⟨_, _, rfl⟩ := h'; rfl
  | add a b | sub a b | mul a b | cmp a b => obtain ⟨_, _, rfl⟩ := h; obtain ⟨_, _, rfl⟩ := h'; rfl
  | div a b => obtain ⟨_, _, _, rfl⟩ := h; obtain ⟨_, _, _, rfl⟩ := h'; rfl

theorem Raises.unique {i : Instr} {s : State} {e e' : ErrorKind} (h : Raises i s e) (h' : Raises i s e') : e = e' := by
  rcases h with ⟨rfl, h⟩ | ⟨rfl, h, _, r, rfl⟩ | ⟨rfl, h, a, b, hb, rfl, hz⟩ <;>
    rcases h' with ⟨rfl, g⟩ | ⟨rfl, g, _, r', hr⟩ | ⟨rfl, g, a', b', hb', hr, gz⟩ <;> simp_all

/-- An instruction runs to its effect. -/
theorem execUnder_of_effect {c : Config} {i : Instr} {s t : State} (h : Effect c i s t) : execUnder c i s = .next t := by
  rcases execUnder_cases c i s with ⟨e, he, _⟩ | ⟨u, hu, h'⟩
  · exact absurd h he.not_effect
  · rw [h', h.unique hu]

/-- An instruction with a reason to raise raises. -/
theorem execUnder_of_raises {c : Config} {i : Instr} {s : State} {e : ErrorKind} (h : Raises i s e) :
    execUnder c i s = .next { s with error := some e } := by
  rcases execUnder_cases c i s with ⟨e', he, h'⟩ | ⟨u, hu, _⟩
  · rw [h.unique he]; exact h'
  · exact absurd hu h.not_effect

end Sys2Proof.Machine
end

