-- ==== Sys2Proof/Laws/Cycle.lean ====
section
/-! SUPPORT. What one step can do, said once, and the decoder's small lemmas. -/

namespace Sys2Proof

theorem Mnemonic.mem_all (m : Mnemonic) : m ∈ Mnemonic.all := by cases m <;> decide

theorem OpcodeTable.lookup_some {t : OpcodeTable} {ir : Byte} {m : Mnemonic} (h : t.lookup ir = some m) :
    t.byteOf m = ir := by
  simpa using List.find?_some h

theorem OpcodeTable.lookup_none {t : OpcodeTable} {ir : Byte} (h : t.lookup ir = none) (m : Mnemonic) :
    t.byteOf m ≠ ir := by
  simpa using List.find?_eq_none.mp h m m.mem_all

/-- In an admissible table no two instructions share a byte. -/
theorem OpcodeTable.byteOf_injective {t : OpcodeTable} (h : t.wf = true) {m n : Mnemonic}
    (hb : t.byteOf m = t.byteOf n) : m = n := by
  simp only [OpcodeTable.wf, Bool.and_eq_true, List.all_eq_true, Bool.or_eq_true, bne_iff_ne, beq_iff_eq] at h
  exact (h.1 m m.mem_all n n.mem_all).resolve_left (fun hne => hne hb)

theorem OpcodeTable.lookup_byteOf {t : OpcodeTable} (h : t.wf = true) (m : Mnemonic) :
    t.lookup (t.byteOf m) = some m := by
  cases hl : t.lookup (t.byteOf m) with
  | none => exact absurd rfl (OpcodeTable.lookup_none hl m)
  | some n => rw [OpcodeTable.byteOf_injective h (OpcodeTable.lookup_some hl)]

/-- In an admissible table each byte has the operand count of its instruction's format. -/
theorem OpcodeTable.operandCount_byteOf {t : OpcodeTable} (h : t.wf = true) (m : Mnemonic) :
    operandCount (t.byteOf m) = m.format.operandCount := by
  simp only [OpcodeTable.wf, Bool.and_eq_true, List.all_eq_true, Mnemonic.fieldsOk, beq_iff_eq] at h
  exact (h.2 m m.mem_all).1.1

theorem Instr.build_operands (i : Instr) : Instr.build i.mnemonic i.operands = some i := by cases i <;> rfl

/-- A built instruction has the name and the operands it was built from. -/
theorem Instr.build_some {m : Mnemonic} {ops : List Byte} {i : Instr} (h : Instr.build m ops = some i) :
    i.mnemonic = m ∧ i.operands = ops := by
  unfold Instr.build at h
  split at h <;> simp_all <;> subst h <;> exact ⟨rfl, rfl⟩

theorem Instr.operands_length (i : Instr) : i.operands.length = i.mnemonic.format.operandCount := by cases i <;> rfl

theorem specTable_wf : specTable.wf = true := by decide

namespace Machine

/-! ### The errors and the successes of a step -/

/-- The eager reads fail exactly when one of the three bytes is past the end of memory. -/
theorem eagerReads_eq (s : State) :
    eagerReads s = if s.pc + 2 < memSize then .ok () else .error .outOfBounds := by
  by_cases h2 : s.pc + 2 < memSize
  · simp [eagerReads, memRead, h2, show s.pc + 1 < memSize by omega, show s.pc < memSize by omega]
  · by_cases h1 : s.pc + 1 < memSize
    · simp [eagerReads, memRead, h2, h1, show s.pc < memSize by omega]
    · by_cases h0 : s.pc < memSize <;> simp [eagerReads, memRead, h2, h1, h0]

/-- Everything a fetch can do: the eager reads fail, or the decoder answers. -/
theorem fetch_eq (c : Config) (s : State) :
    fetch c s =
      if c.eagerOperandFetch = true ∧ memSize ≤ s.pc + 2 then .error .outOfBounds
      else (decodeFrom c.opcodeTable fun k => byteAt s (s.pc + k)).mapError decodeErrorKind := by
  unfold fetch
  rw [eagerReads_eq]
  cases c.eagerOperandFetch <;> by_cases h : s.pc + 2 < memSize <;>
    cases decodeFrom c.opcodeTable (fun k => byteAt s (s.pc + k)) <;>
    simp [h, Nat.not_le.mpr, Nat.not_lt.mp, Except.mapError]

/-- Everything a fetch can raise. -/
theorem fetch_error {c : Config} {s : State} {e : ErrorKind} (h : fetch c s = .error e) :
    e = .outOfBounds ∨ e = .unknownOpcode := by
  rw [fetch_eq] at h
  split at h
  · simp_all
  · cases hd : decodeFrom c.opcodeTable (fun k => byteAt s (s.pc + k)) with
    | error d => cases d <;> simp_all [Except.mapError, decodeErrorKind]
    | ok i => simp_all [Except.mapError]

/-- Everything a step can do: stop because the machine has ended, raise an error, or have an instruction's effect. -/
theorem stepUnder_cases (c : Config) (s : State) :
    (s.status = .halted ∧ stepUnder c s = .fault .halted) ∨
    (∃ e, s.status = .failed e ∧ stepUnder c s = .fault (.failed e)) ∨
    (s.status = .running ∧ ∃ e, e ≠ .unsupportedOperation ∧ stepUnder c s = .next { s with error := some e }) ∨
    (s.status = .running ∧ ∃ i t, fetch c s = .ok i ∧ Effect c i s t ∧ stepUnder c s = .next t) := by
  unfold stepUnder cycle
  cases hs : s.status with
  | halted => exact .inl ⟨rfl, rfl⟩
  | failed e => exact .inr (.inl ⟨e, rfl, rfl⟩)
  | running =>
    cases hf : fetch c s with
    | error e =>
      refine .inr (.inr (.inl ⟨rfl, e, ?_, rfl⟩))
      rcases fetch_error hf with rfl | rfl <;> decide
    | ok i =>
      rcases execUnder_cases c i s with ⟨e, hr, he⟩ | ⟨t, ht, he⟩
      · exact .inr (.inr (.inl ⟨rfl, e, hr.ne_unsupported, by simp [he, raise]⟩))
      · exact .inr (.inr (.inr ⟨rfl, i, t, rfl, ht, he⟩))

/-- Where a step answers a next state, the machine was running, and it raised an error or ran the instruction fetched. -/
theorem stepUnder_next_cases {c : Config} {s t : State} (h : stepUnder c s = .next t) :
    s.status = .running ∧ ((∃ e, e ≠ .unsupportedOperation ∧ t = { s with error := some e }) ∨
      ∃ i, fetch c s = .ok i ∧ Effect c i s t) := by
  rcases stepUnder_cases c s with ⟨_, h'⟩ | ⟨e, _, h'⟩ | ⟨h', e, he, ht⟩ | ⟨h', i, u, hf, hu, ht⟩
  · rw [h'] at h; cases h
  · rw [h'] at h; cases h
  · rw [ht] at h; injection h with h; exact ⟨h', .inl ⟨e, he, h.symm⟩⟩
  · rw [ht] at h; injection h with h; subst h; exact ⟨h', .inr ⟨i, hf, hu⟩⟩

/-- An instruction is fetched only from inside memory. -/
theorem fetch_pc_lt {c : Config} {s : State} {i : Instr} (h : fetch c s = .ok i) : s.pc < memSize := by
  rw [fetch_eq] at h
  split at h
  · simp at h
  · by_contra hc
    simp [decodeFrom, byteAt, hc, Except.mapError] at h

/-- The step is the step under the spec's configuration. -/
theorem step_eq_stepUnder (s : State) : step s = stepUnder specConfig s := by
  have h : exec = execUnder specConfig := by funext i s; simp
  simp only [step, stepUnder, h]

end Machine
end Sys2Proof
end

