-- ==== Sys2Proof/Laws/Interface.lean ====
section
/-! SUPPORT. What `load` and the run loop do, said once. -/

namespace Sys2Proof.Machine

/-- Loading through the write port is storing the image. -/
theorem loadFrom_eq : ∀ (bs : List Byte) (a : Nat) (s : State), loadFrom bs a s = { s with mem := storeBytes bs a s.mem }
  | [], _, _ => rfl
  | b :: bs, a, s => by simp only [loadFrom, loadFrom_eq bs, writePort, storeBytes]

/-- Everything a load that succeeds does. -/
theorem load_next {bytes : List Byte} {s t : State} (h : load bytes s = .next t) :
    s.status = .running ∧ bytes.length ≤ memSize ∧ t = { s with mem := storeBytes bytes 0 s.mem } := by
  unfold load at h
  split at h
  · next hs =>
    split at h
    · cases h
    · next hl =>
      injection h with h
      exact ⟨hs, Nat.not_lt.mp hl, by rw [← h, loadFrom_eq]⟩
  · cases h
  · cases h

/-- The run of an ended machine is its end, whatever the fuel. -/
theorem runUnder_of_halted {c : Config} {s : State} (h : s.status = .halted) (n : Nat) : runUnder c n s = .ok s := by
  cases n <;> simp [runUnder, h]

theorem runUnder_of_failed {c : Config} {s : State} {e : ErrorKind} (h : s.status = .failed e) (n : Nat) :
    runUnder c n s = .error e s := by
  cases n <;> simp [runUnder, h]

theorem runUnder_zero_of_running {c : Config} {s : State} (h : s.status = .running) : runUnder c 0 s = .goesOn s := by
  simp [runUnder, h]

/-- One step of the run loop. -/
theorem runUnder_succ {c : Config} {s t : State} (h : stepUnder c s = .next t) (n : Nat) :
    runUnder c (n + 1) s = runUnder c n t := by
  simp [runUnder, (stepUnder_next_cases h).1, h]

end Sys2Proof.Machine
end

