-- ==== Sys2Proof/Laws/PerInstr.lean ====
section
/-! SUPPORT. A statement about every instruction as syntax, one lemma per constructor. -/

/-- An instruction's encoding is as long as the instruction (spec/30_encoding.md R60). -/
def Sys2Proof.Laws.EncodedLength.Statement (i : Sys2Proof.Instr) : Prop :=
  ∀ t : Sys2Proof.OpcodeTable, (Sys2Proof.encode t i).length = i.length

namespace Sys2Proof.Laws.EncodedLength

theorem hlt : Statement .hlt := fun _ => rfl
theorem ret : Statement .ret := fun _ => rfl
theorem prn (r : Byte) : Statement (.prn r) := fun _ => rfl
theorem push (r : Byte) : Statement (.push r) := fun _ => rfl
theorem pop (r : Byte) : Statement (.pop r) := fun _ => rfl
theorem call (r : Byte) : Statement (.call r) := fun _ => rfl
theorem jmp (r : Byte) : Statement (.jmp r) := fun _ => rfl
theorem jeq (r : Byte) : Statement (.jeq r) := fun _ => rfl
theorem jne (r : Byte) : Statement (.jne r) := fun _ => rfl
theorem ldi (r imm : Byte) : Statement (.ldi r imm) := fun _ => rfl
theorem add (a b : Byte) : Statement (.add a b) := fun _ => rfl
theorem sub (a b : Byte) : Statement (.sub a b) := fun _ => rfl
theorem mul (a b : Byte) : Statement (.mul a b) := fun _ => rfl
theorem div (a b : Byte) : Statement (.div a b) := fun _ => rfl
theorem cmp (a b : Byte) : Statement (.cmp a b) := fun _ => rfl

end Sys2Proof.Laws.EncodedLength
end

