-- ==== Sys2Proof/Tests/Slice0.lean ====
section
/-! SUPPORT. The model's own tests. Expected values come from the encodings of spec/30_encoding.md R66 and the vectors
of spec/95_test_vectors.md, named in each comment; the witnesses show states and operands that meet the hypotheses of
the statements. -/

namespace Sys2Proof.Machine.Tests

/-! ### Small states -/

/-- The state a step answers, if it answers one. -/
def after (o : Outcome) : Option State :=
  match o with
  | .next t => some t
  | .fault _ => none
  | .refused _ => none

/-- A machine with these bytes at `pc`, these R0, R1, R3 and SP. -/
def machine (bytes : List Byte) (pc : Nat) (x0 x1 x3 spValue : Byte) : State :=
  { State.reset with
    mem := storeBytes bytes pc [], pc := pc, regs := #v[x0, x1, 0, x3, 0, 0, 0, spValue] }

/-- The same with one more byte of memory. -/
def withByte (a : Nat) (b : Byte) (s : State) : State := { s with mem := Memory.write s.mem a b }

/-! ### Well-formedness: one ill-formed term for each check (30_encoding.md R72, 92 D1) -/

theorem test_wellFormed_refuses_register_8 : ¬ (Instr.prn 8).WellFormed := by decide
theorem test_wellFormed_refuses_second_register_255 : ¬ (Instr.add 0 255).WellFormed := by decide
theorem test_wellFormed_accepts_any_immediate : (Instr.ldi 7 255).WellFormed := by decide
theorem test_table_refuses_shared_byte : OpcodeTable.wf { specTable with mul := 0xA0 } = false := by decide
theorem test_table_refuses_wrong_operand_count : OpcodeTable.wf { specTable with hlt := 0x41 } = false := by decide
theorem test_table_refuses_wrong_alu_bit : OpcodeTable.wf { specTable with ldi := 0xA8 } = false := by decide
theorem test_table_refuses_wrong_bit4 : OpcodeTable.wf { specTable with jmp := 0x48 } = false := by decide
theorem test_assembly_ldi : (Instr.ldi 2 37).assembly = some ⟨"LDI", [.reg 2, .imm 37]⟩ := by decide
theorem test_assembly_none_for_register_8 : (Instr.cmp 0 8).assembly = none := by decide

/-! ### Decoding: each constructor from a word written out from 30_encoding.md R66 -/

theorem test_decode_hlt : decode specTable [0b00000001] = .ok (.hlt, []) := by decide
theorem test_decode_ret : decode specTable [0b00010001] = .ok (.ret, []) := by decide
theorem test_decode_prn : decode specTable [0b01000111, 2] = .ok (.prn 2, []) := by decide
theorem test_decode_push : decode specTable [0b01000101, 0] = .ok (.push 0, []) := by decide
theorem test_decode_pop : decode specTable [0b01000110, 1] = .ok (.pop 1, []) := by decide
theorem test_decode_call : decode specTable [0b01010000, 1] = .ok (.call 1, []) := by decide
theorem test_decode_jmp : decode specTable [0b01010100, 3] = .ok (.jmp 3, []) := by decide
theorem test_decode_jeq : decode specTable [0b01010101, 3] = .ok (.jeq 3, []) := by decide
theorem test_decode_jne : decode specTable [0b01010110, 3] = .ok (.jne 3, []) := by decide
theorem test_decode_ldi : decode specTable [0b10000010, 2, 37, 1] = .ok (.ldi 2 37, [1]) := by decide
theorem test_decode_add : decode specTable [0b10100000, 0, 1] = .ok (.add 0 1, []) := by decide
theorem test_decode_sub : decode specTable [0b10100001, 0, 1] = .ok (.sub 0 1, []) := by decide
theorem test_decode_mul : decode specTable [0b10100010, 0, 1] = .ok (.mul 0 1, []) := by decide
theorem test_decode_div : decode specTable [0b10100011, 0, 1] = .ok (.div 0 1, []) := by decide
theorem test_decode_cmp : decode specTable [0b10100111, 0, 1] = .ok (.cmp 0 1, []) := by decide
/-- A register operand is the whole byte, not masked to 3 bits (30_encoding.md R65). -/
theorem test_decode_keeps_whole_operand : decode specTable [0x47, 0x0A] = .ok (.prn 0x0A, []) := by decide
/-- Vectors C2 to C5. -/
theorem test_decode_unlisted : [0x00, 0xC0, 0x20, 0xA4, 0x48, 0x83].map (fun b => decode specTable [b, 0, 0]) =
    [0x00, 0xC0, 0x20, 0xA4, 0x48, 0x83].map (fun b => .error (.unknownOpcode b)) := by decide
theorem test_decode_truncated : decode specTable [0x82, 0] = .error (.missingByte 2) := by decide
theorem test_decodeTableWord_ldi : decodeTableWord 24 0x250282 = some (.ldi 2 37) := by decide
theorem test_withFetchWord_places_the_word :
    bytesFrom (State.reset.withFetchWord 16 0x0247) 3 0 = [0x47, 2, 0] := by decide

/-! ### One step each (95_test_vectors.md) -/

/-- A1, S2. -/
theorem test_add_wraps : (after (step (machine [0xA0, 0, 1] 0 200 100 0 255))).map
    (fun t => (readReg t 0, readReg t 1, t.fl, t.pc)) = some (44, 100, 0, 3) := by decide
/-- A5. -/
theorem test_add_sp : (after (step (machine [0xA0, 7, 0] 0 3 0 0 255))).map (readReg · 7) = some 2 := by decide
/-- A6. -/
theorem test_sub_wraps : (after (step (machine [0xA1, 0, 1] 0 5 10 0 255))).map (readReg · 0) = some 251 := by decide
/-- A8. -/
theorem test_sub_order : (after (step (machine [0xA1, 0, 1] 0 10 5 0 255))).map (readReg · 0) = some 5 := by decide
/-- A13. -/
theorem test_mul_wraps : (after (step (machine [0xA2, 0, 1] 0 20 13 0 255))).map (readReg · 0) = some 4 := by decide
/-- A14. -/
theorem test_mul_square : (after (step (machine [0xA2, 0, 0] 0 15 0 0 255))).map (readReg · 0) = some 225 := by decide
/-- A16. -/
theorem test_div_floor : (after (step (machine [0xA3, 0, 1] 0 255 2 0 255))).map (readReg · 0) = some 127 := by decide
/-- A22, S3. -/
theorem test_div_by_zero : (after (step (machine [0xA3, 0, 1] 0 7 0 0 255))).map
    (fun t => (t.error, readReg t 0, readReg t 1, t.pc)) = some (some .divideByZero, 7, 0, 0) := by decide
/-- A24 to A26. -/
theorem test_cmp_flags : [(5, 10), (10, 5), (7, 7)].map (fun p => (after (step (machine [0xA7, 0, 1] 0 p.1 p.2 0 255))).map
    State.fl) = [some 0b100, some 0b010, some 0b001] := by decide
/-- A29, both modes. -/
theorem test_cmp_modes : [CmpMode.unsigned, .signed].map (fun m =>
    (after (stepUnder { specConfig with cmpMode := m } (machine [0xA7, 0, 1] 0 200 100 0 255))).map State.fl) =
      [some 0b010, some 0b100] := by decide
/-- L1. -/
theorem test_ldi : (after (step (machine [0x82, 2, 37] 0 0 0 0 255))).map (fun t => (readReg t 2, t.pc)) =
    some (37, 3) := by decide
/-- L6. -/
theorem test_prn_sp : (after (step (machine [0x47, 7] 0 0 0 0 255))).map (fun t => (t.out, t.pc)) =
    some ([255], 2) := by decide
/-- K2. -/
theorem test_push_sp : (after (step (machine [0x45, 7] 0 0 0 0 255))).map
    (fun t => (readReg t 7, Memory.read t.mem 254)) = some (254, 255) := by decide
/-- K3. -/
theorem test_push_wraps : (after (step (machine [0x45, 0] 0 42 0 0 0))).map
    (fun t => (readReg t 7, Memory.read t.mem 255)) = some (255, 42) := by decide
/-- K6. -/
theorem test_pop_at_255 : (after (step (withByte 255 42 (machine [0x46, 1] 0 0 0 0 255)))).map
    (fun t => (readReg t 1, readReg t 7)) = some (42, 255) := by decide
/-- K7. -/
theorem test_pop_sp : (after (step (withByte 254 16 (machine [0x46, 7] 0 0 0 0 254)))).map (readReg · 7) =
    some 16 := by decide
/-- T1. -/
theorem test_jmp : (after (step (machine [0x54, 3] 20 0 0 12 255))).map State.pc = some 12 := by decide
/-- T3 to T5. -/
theorem test_jeq : [1, 2, 0].map (fun f => (after (step { machine [0x55, 3] 20 0 0 40 255 with fl := f })).map State.pc) =
    [some 40, some 22, some 22] := by decide
/-- T6 to T8. -/
theorem test_jne : [4, 0, 1].map (fun f => (after (step { machine [0x56, 3] 20 0 0 12 255 with fl := f })).map State.pc) =
    [some 12, some 12, some 22] := by decide
/-- T10. -/
theorem test_call : (after (step (machine [0x50, 1] 6 0 11 0 255))).map
    (fun t => (readReg t 7, Memory.read t.mem 254, t.pc)) = some (254, 8, 11) := by decide
/-- T11. -/
theorem test_call_sp : (after (step (machine [0x50, 7] 0 0 0 0 255))).map
    (fun t => (Memory.read t.mem 254, t.pc)) = some (2, 254) := by decide
/-- T12. -/
theorem test_call_at_254 : step (machine [0x50, 1] 254 0 0 0 255) =
    .next { machine [0x50, 1] 254 0 0 0 255 with error := some .outOfBounds } := rfl
/-- T14. -/
theorem test_ret : (after (step (withByte 254 8 (machine [0x11] 14 0 0 0 254)))).map
    (fun t => (t.pc, readReg t 7)) = some (8, 255) := by decide
/-- H2, both values of EAGER_OPERAND_FETCH. -/
theorem test_hlt_at_255 : [false, true].map (fun e =>
    (after (stepUnder { specConfig with eagerOperandFetch := e } (machine [0x01] 255 0 0 0 255))).map
      (fun t => (t.halted, t.error, t.pc))) = [some (true, none, 256), some (false, some .outOfBounds, 255)] := by decide

/-! ### Errors, reset, load (95_test_vectors.md §2.6, §2.7) -/

/-- A35: the register is checked before the divisor. -/
theorem test_invalid_register_first : (after (step (machine [0xA3, 8, 1] 0 0 0 0 255))).map State.error =
    some (some .invalidRegister) := by decide
/-- T9: an untaken JNE checks its register. -/
theorem test_untaken_branch_checks : (after (step { machine [0x56, 9] 20 0 0 0 255 with fl := 1 })).map
    (fun t => (t.error, t.pc)) = some (some .invalidRegister, 20) := by decide
/-- C7 and C8. -/
theorem test_errors_at_the_top : [machine [0x82, 0] 254 0 0 0 255, machine [0xFF] 255 0 0 0 255].map
    (fun s => (after (step s)).map State.error) = [some (some .outOfBounds), some (some .unknownOpcode)] := by decide
/-- Z5: reset memory holds no program. -/
theorem test_step_from_reset : step State.reset = .next { State.reset with error := some .unknownOpcode } := rfl
/-- Z3. -/
theorem test_load_twice : (after (load [1, 2, 3] construct)).bind (fun s => (after (load [9] s)).map
    (fun t => bytesFrom t 4 0)) = some [9, 2, 3, 0] := by decide
theorem test_error_codes : [ErrorKind.outOfBounds, .invalidRegister, .unknownOpcode, .divideByZero,
    .unsupportedOperation].map ErrorKind.code = [1, 2, 3, 4, 5] := by decide

/-! ### Witnesses: the hypotheses of each statement are met -/

/-- A machine whose every step is `JMP R0` to itself. -/
def spinning : State := machine [0x54, 0] 0 0 0 0 255

theorem spinning_steps : stepUnder specConfig spinning = .next spinning := rfl

theorem spinning_goes_on : ∀ n, runUnder specConfig n spinning = .goesOn spinning
  | 0 => rfl
  | n + 1 => by rw [runUnder_succ spinning_steps, spinning_goes_on n]

def haltedMachine : State := { State.reset with halted := true }
def failedMachine : State := { State.reset with error := some .divideByZero }

theorem witness_RegisterWriteMasksToOneByte : (6 : Reg) ∉ [(7 : Reg)] := by decide
theorem witness_MemReadIsBoundsChecked :
    memRead State.reset 255 = .ok 0 ∧ memRead State.reset 256 = .error .outOfBounds := by decide
theorem witness_MemoryReadAfterWrite : Memory.wf State.reset.mem = true ∧ 255 < 256 ∧
    memWrite 256 1 State.reset = .error .outOfBounds := by decide
theorem witness_CanonicalMemoriesThatReadAlikeAreEqual : Memory.wf [(3, 7), (255, 1)] = true := by decide
theorem witness_PushDecrementsSpAndWrites : Memory.wf (machine [1] 255 0 0 0 0).mem = true := by decide
theorem witness_PopReadsAndAdvancesSpBelow255 :
    (readReg (machine [] 0 0 0 0 254) sp).toNat < 255 ∧ (readReg State.reset sp).toNat = 255 := by decide
theorem witness_DecodeOfEncodeIsTheInstruction : specTable.wf = true := specTable_wf
theorem witness_OnlyEncodingsDecode : specTable.wf = true ∧ decode specTable [0x47, 9, 1] = .ok (.prn 9, [1]) := by decide
theorem witness_InstructionIsOpcodeThenCountedOperands : specTable.wf = true := specTable_wf
theorem witness_UnlistedOpcodesAreUnknown : State.reset.status = .running ∧ byteAt State.reset State.reset.pc = some 0 ∧
    (0 : Byte) ∉ ([0x01, 0x11, 0x47, 0x45, 0x46, 0x50, 0x54, 0x55, 0x56, 0x82, 0xA0, 0xA1, 0xA2, 0xA3, 0xA7] : List Byte) := by
  decide
theorem witness_StepRunsTheDecodedInstruction : (machine [0x47, 9] 254 0 0 0 255).status = .running ∧
    decode specConfig.opcodeTable (bytesFrom (machine [0x47, 9] 254 0 0 0 255) maxLength 254) = .ok (.prn 9, []) := by
  decide
theorem witness_FetchErrorsComeInOrder : (machine [] 256 0 0 0 255).status = .running ∧
    byteAt State.reset 0 = some 0 ∧ specConfig.opcodeTable.lookup 0 = none ∧
    byteAt (machine [0x47] 255 0 0 0 255) 255 = some 0x47 ∧
    specConfig.opcodeTable.lookup 0x47 = some .prn ∧ 256 ≤ 255 + Mnemonic.prn.format.operandCount := by decide
theorem witness_EagerFetchMattersOnlyAtTheTop : (machine [0x01] 253 0 0 0 255).status = .running ∧
    (machine [0x01] 254 0 0 0 255).status = .running ∧ 253 + 2 < 256 ∧ 256 ≤ 254 + 2 := by decide
theorem witness_EngineStopsOnlyAtHaltOrError : spinning.halted = false ∧ spinning.error = none ∧
    (∃ t, stepUnder specConfig spinning = .next t) ∧ (∀ t, ¬ HaltsAt specConfig spinning t) ∧
    SafeRun specConfig spinning := by
  refine ⟨rfl, rfl, ⟨_, spinning_steps⟩, fun t ⟨n, h⟩ => ?_, fun e t ⟨n, h⟩ => ?_⟩ <;>
    · rw [spinning_goes_on] at h; cases h
theorem witness_ErrorAbortsTheRun :
    ∃ t, stepUnder specConfig State.reset = .next t ∧ t.error = some .unknownOpcode := ⟨_, rfl, rfl⟩
theorem witness_UnsupportedOperationIsNeverRaised : (∃ t, stepUnder specConfig spinning = .next t) ∧
    Mnemonic.ldi ∉ [Mnemonic.add, .sub, .mul, .div, .cmp] := ⟨⟨_, rfl⟩, by decide⟩
theorem witness_HaltedIsSetOnlyByHlt : (∃ t, stepUnder specConfig (machine [1] 255 0 0 0 255) = .next t) ∧
    (∃ t, execUnder specConfig (.prn 8) State.reset = .next t) ∧ haltedMachine.halted = true :=
  ⟨⟨_, rfl⟩, ⟨_, rfl⟩, rfl⟩
theorem witness_ErrorIsNeverCleared : failedMachine.error ≠ none ∧
    (∃ t, execUnder specConfig .hlt failedMachine = .next t) ∧
    ∃ t, stepUnder specConfig State.reset = .next t ∧ t.error ≠ State.reset.error :=
  ⟨by decide, ⟨_, rfl⟩, _, rfl, by decide⟩
theorem witness_OutputIsAppendedOnlyByPrnAndNeverRead :
    (∃ t, execUnder specConfig (.prn 7) State.reset = .next t) ∧ (∃ t, execUnder specConfig (.prn 8) State.reset = .next t) ∧
    ∃ t, stepUnder specConfig (machine [0x47, 7] 0 0 0 0 255) = .next t ∧ t.out ≠ State.reset.out :=
  ⟨⟨_, rfl⟩, ⟨_, rfl⟩, _, rfl, by decide⟩
theorem witness_FlagsAreWrittenOnlyByCmp : (∃ t, execUnder specConfig (.ldi 7 1) State.reset = .next t) ∧
    (0 : Byte).toNat < nreg ∧ (7 : Byte).toNat < nreg ∧
    ∃ t, stepUnder specConfig (machine [0xA7, 0, 7] 0 0 0 0 255) = .next t ∧ t.fl ≠ State.reset.fl :=
  ⟨⟨_, rfl⟩, by decide, by decide, _, rfl, by decide⟩
theorem witness_FlagsAreReadOnlyByJeqAndJne : (∃ t, execUnder specConfig (.add 0 7) State.reset = .next t) ∧
    (Instr.add 0 7).mnemonic ∉ [Mnemonic.jeq, .jne, .cmp] ∧
    (∃ t, execUnder specConfig (.cmp 0 8) State.reset = .next t) ∧ ¬ (Instr.cmp 0 8).WellFormed ∧
    (∃ t, execUnder specConfig (.cmp 0 7) State.reset = .next t) ∧ (Instr.cmp 0 7).WellFormed ∧
    (∃ t, execUnder specConfig (.jne 7) State.reset = .next t) ∧
    (0b110 : Byte).getLsbD 0 = State.reset.fl.getLsbD 0 :=
  ⟨⟨_, rfl⟩, by decide, ⟨_, rfl⟩, by decide, ⟨_, rfl⟩, by decide, ⟨_, rfl⟩, by decide⟩
theorem witness_RegisterOperandsAreCheckedFirst : (7 : Byte).toNat < 8 ∧
    ∃ r ∈ (Instr.div 0 8).regOperands, 8 ≤ r.toNat := ⟨by decide, 8, by decide, by decide⟩
theorem witness_OnlyPushAndCallWriteMemory : (∃ t, execUnder specConfig (.push 7) State.reset = .next t) ∧
    (∃ t, execUnder specConfig (.call 0) State.reset = .next t) ∧ ∃ t, execUnder specConfig .ret State.reset = .next t :=
  ⟨⟨_, rfl⟩, ⟨_, rfl⟩, _, rfl⟩
theorem witness_RegistersChangeOnlyAsDestinationOrSp :
    (∃ t, execUnder specConfig (.ldi 6 1) State.reset = .next t ∧ readReg t 6 ≠ readReg State.reset 6) ∧
    ∃ t, execUnder specConfig (.push 0) State.reset = .next t ∧ readReg t 7 ≠ readReg State.reset 7 :=
  ⟨⟨_, rfl, by decide⟩, _, rfl, by decide⟩
/-- The reset state with E as given. -/
def flagged (e : Bool) : State := setFl (if e then flEqual else flLess) State.reset

theorem witness_PcAdvancesUnlessWritten : State.reset.error = none ∧
    (∃ t, execUnder specConfig (.ldi 6 1) State.reset = .next t ∧ t.error = none) ∧
    (∃ t, execUnder specConfig (.jmp 7) State.reset = .next t ∧ t.error = none) ∧
    ∀ e : Bool, (∃ t, execUnder specConfig (.jeq 7) (flagged e) = .next t ∧ t.error = none) ∧
      (∃ t, execUnder specConfig (.jne 7) (flagged e) = .next t ∧ t.error = none) ∧
      flagE (flagged e) = e ∧ (flagged e).error = none :=
  ⟨rfl, ⟨_, rfl, rfl⟩, ⟨_, rfl, rfl⟩, fun e => by
    cases e <;> exact ⟨⟨_, rfl, rfl⟩, ⟨_, rfl, rfl⟩, by decide, rfl⟩⟩

theorem reset_inv : Inv State.reset := ⟨rfl, by decide, .inl rfl, .inl rfl⟩

theorem witness_StepKeepsTheInvariant : Inv State.reset ∧ (∃ t, step State.reset = .next t) ∧
    ∃ t, stepUnder specConfig State.reset = .next t := ⟨reset_inv, ⟨_, rfl⟩, _, rfl⟩
theorem witness_LoadKeepsTheInvariant : Inv State.reset ∧ ∃ t, load [1, 0, 2] State.reset = .next t :=
  ⟨reset_inv, _, rfl⟩
theorem witness_RunEndsInExactlyOneWay : (∃ t, HaltsAt specConfig (machine [1] 255 0 0 0 255) t) ∧
    ∃ e t, FailsAt specConfig State.reset e t := ⟨⟨_, 1, rfl⟩, _, _, 1, rfl⟩
theorem witness_LoadWritesTheImageOnly : State.reset.status = .running ∧ Memory.wf State.reset.mem = true ∧
    (List.replicate 256 (1 : Byte)).length ≤ 256 ∧ 256 < (List.replicate 257 (1 : Byte)).length :=
  ⟨rfl, rfl, List.length_replicate.le, by rw [List.length_replicate]; decide⟩
theorem witness_HostOperationsAreRefusedAfterTheRun :
    haltedMachine.status ≠ .running ∧ failedMachine.status ≠ .running := by decide

/-- Operands of one and of two registers, the highest among them (the LDI, PRN, PUSH, POP, JMP, JEQ, JNE, CALL and ALU
statements). -/
theorem witness_operands : (7 : Byte).toNat < nreg ∧ (0 : Byte).toNat < nreg ∧
    regOf 7 (by decide) = sp ∧ regOf 6 (by decide) ≠ sp := by decide
theorem witness_DivWritesTheFloorOfTheQuotient :
    (readReg (machine [] 0 7 1 0 255) (regOf 1 (by decide))).toNat ≠ 0 := by decide
theorem witness_DivByZeroRaisesAndChangesNothing :
    (readReg (machine [] 0 7 0 0 255) (regOf 1 (by decide))).toNat = 0 := by decide
theorem witness_CmpSetsExactlyOneFlag :
    (readReg (machine [] 0 5 10 0 255) 0).toNat < (readReg (machine [] 0 5 10 0 255) 1).toNat ∧
    (readReg (machine [] 0 10 5 0 255) 0).toNat > (readReg (machine [] 0 10 5 0 255) 1).toNat ∧
    (readReg (machine [] 0 7 7 0 255) 0).toNat = (readReg (machine [] 0 7 7 0 255) 1).toNat := by decide
theorem witness_CompareModesDifferExactlyAcross128 :
    ¬ ((127 : Byte).toNat < 128 ↔ (128 : Byte).toNat < 128) := by decide
theorem witness_PushStoresTheRegister : (7 : Byte).toNat < nreg ∧ Memory.wf (machine [1] 9 0 0 0 0).mem = true := by decide
theorem witness_PopLoadsTheRegister : regOf 6 (by decide) ≠ sp ∧ (readReg (machine [] 0 0 0 0 254) sp).toNat < 255 ∧
    ¬ (readReg (machine [] 0 0 0 0 255) sp).toNat < 255 := by decide
theorem witness_JeqAndJneBranch :
    ({ State.reset with fl := 1 } : State).fl.getLsbD 0 = true ∧ State.reset.fl.getLsbD 0 = false := by decide
theorem witness_CallPushesTheReturnAddress : Memory.wf (machine [0x50, 7] 253 0 0 0 255).mem = true ∧
    (machine [0x50, 7] 253 0 0 0 255).pc + 2 ≤ 255 := by decide
theorem witness_CallNearTheTopRaisesOutOfBounds : (7 : Byte).toNat < nreg ∧
    255 < (machine [0x50, 7] 254 0 0 0 255).pc + 2 := by decide
theorem witness_PopAfterPushGivesThePushedValue : Memory.wf (machine [] 0 9 0 0 0).mem = true ∧
    regOf 1 (by decide) ≠ sp ∧ (readReg (machine [] 0 9 0 0 0) sp).toNat = 0 := by decide
theorem witness_RetAfterCallResumesAfterTheCall : (1 : Byte).toNat < nreg ∧ Memory.wf State.reset.mem = true ∧
    State.reset.pc + 2 ≤ 255 ∧ ∃ t, exec (.call 1) State.reset = .next t ∧
      readReg t sp = readReg t sp ∧ Memory.read t.mem (pushSlot State.reset) = Memory.read t.mem (pushSlot State.reset) :=
  ⟨by decide, rfl, by decide, _, rfl, rfl, rfl⟩

end Sys2Proof.Machine.Tests
end

section
/-! Proofs for spec/00_scope.md: the register check (R12) and the values of the parameters (R10). -/

namespace Sys2Proof

/-- Well-formedness is the check of R12 at every register operand. -/
theorem Instr.wellFormed_iff {i : Instr} : i.WellFormed ↔ ∀ r ∈ i.regOperands, r.toNat < nreg := by
  simp [Instr.WellFormed, Instr.wellFormed, regOperandOk]

theorem Instr.not_wellFormed_iff {i : Instr} : ¬ i.WellFormed ↔ ∃ r ∈ i.regOperands, nreg ≤ r.toNat := by
  simp [Instr.wellFormed_iff]

namespace Machine

/-- Settles O26: one operand that fails the check of R12 makes the instruction ill formed, and an ill-formed instruction
raises InvalidRegister. -/
theorem registerOperandsAreCheckedFirst : Obligations.RegisterOperandsAreCheckedFirst := by
  refine ⟨fun _ => ⟨checkReg_ok, checkReg_error⟩, fun c i s hbad => ?_⟩
  have hill : ¬ i.WellFormed := Instr.not_wellFormed_iff.mpr hbad
  exact execUnder_of_not_wellFormed c s hill

/-- Settles O15: the three values are those `specConfig` is defined with; `step` and `exec` agree with the configured
ones by the laws of the cycle and of the dispatch. -/
theorem stepIsTheConfiguredStep : Obligations.StepIsTheConfiguredStep :=
  ⟨rfl, rfl, specTable_wf, fun s => ⟨step_eq_stepUnder s, fun i => (execUnder_specConfig i s).symm⟩⟩

end Machine
end Sys2Proof
end

section
/-! Proofs for spec/10_state.md: the reset values (R31), the registers (R21, R22), the flags (R26, R27), `halted` (R32),
`error` (R33) and `out` (R34). The statements about instructions rest on the inversion lemmas `execUnder_next_cases` and
`stepUnder_next_cases` and on what `Effect` does to one field, said once here for each field. -/

namespace Sys2Proof.Machine

/-! ### Reset and register writes -/

theorem readReg_reset : ∀ r : Reg, readReg State.reset r = if r = 7 then 255 else 0 := by decide

/-- The low 8 bits of an integer are its non-negative residue (00_scope.md §5). -/
theorem u8_toNat_int (v : Int) : ((u8 v).toNat : Int) = v % 256 := by
  rw [u8_toNat]
  exact Int.toNat_of_nonneg (Int.emod_nonneg v (by decide))

theorem sameRegsBut_writeReg (r : Reg) (v : Int) (s : State) : SameRegsBut [r] s (writeReg r v s) :=
  fun _ hq => readReg_writeReg_ne (List.ne_of_not_mem_cons hq) v s

/-- Settles O1: every register and every address of memory reads its reset value; the other fields are literals. -/
theorem resetLeavesTheStatedValues : Obligations.ResetLeavesTheStatedValues :=
  ⟨rfl, readReg_reset, fun _ ha => memRead_ok ha, rfl, rfl, rfl, rfl, rfl⟩

/-- Settles O2: the written register reads `u8` of the value, and a write frames every other register. -/
theorem registerWriteMasksToOneByte : Obligations.RegisterWriteMasksToOneByte := by
  refine ⟨fun s r v => ⟨?_, sameRegsBut_writeReg r v s⟩, readReg_reset⟩
  rw [readReg_writeReg_same, u8_toNat_int]

/-- Settles O30: reset memory lists no cell, `pc` and FL are 0, and neither end is set. -/
theorem invariantHoldsAtReset : Obligations.InvariantHoldsAtReset where
  memory := State.reset_memory_wf
  pc := Nat.zero_le _
  flags := .inl rfl
  ending := .inl rfl

/-! ### Steps -/

/-- A running machine executes what it fetches. -/
theorem stepUnder_of_fetch {c : Config} {s : State} {i : Instr} (hs : s.status = .running) (hf : fetch c s = .ok i) :
    stepUnder c s = execUnder c i s := by
  simp [stepUnder, cycle, hs, hf]

theorem stepUnder_next_running {c : Config} {s t : State} (h : stepUnder c s = .next t) :
    s.halted = false ∧ s.error = none :=
  (status_running_iff s).mp (stepUnder_next_cases h).1

/-! ### `halted` -/

theorem Effect.halted_eq {c : Config} {i : Instr} {s t : State} (h : Effect c i s t) :
    t.halted = if i = .hlt then true else s.halted := by
  cases i with
  | hlt | ret => subst h; simp
  | prn r | push r | pop r | jmp r | jeq r | jne r | ldi r imm => obtain ⟨_, rfl⟩ := h; simp
  | call r => obtain ⟨_, _, rfl⟩ := h; simp
  | add a b | sub a b | mul a b | cmp a b => obtain ⟨_, _, rfl⟩ := h; simp
  | div a b => obtain ⟨_, _, _, rfl⟩ := h; simp

/-- HLT has its effect in every state, so it never raises. -/
theorem Raises.ne_hlt {i : Instr} {s : State} {e : ErrorKind} (h : Raises i s e) : i ≠ .hlt := by
  rintro rfl
  exact h.not_effect (c := specConfig) rfl

theorem execUnder_halted {c : Config} {i : Instr} {s t : State} (h : execUnder c i s = .next t) :
    t.halted = if i = .hlt then true else s.halted := by
  rcases execUnder_next_cases h with ⟨e, he, rfl⟩ | ht
  · rw [if_neg he.ne_hlt]
  · exact ht.halted_eq

theorem stepUnder_halted_iff {c : Config} {s t : State} (h : stepUnder c s = .next t) :
    t.halted = true ↔ fetch c s = .ok .hlt := by
  obtain ⟨hs, hcases⟩ := stepUnder_next_cases h
  have hrun : s.halted = false := (stepUnder_next_running h).1
  constructor
  · intro ht
    rcases hcases with ⟨e, -, rfl⟩ | ⟨i, hf, hi⟩
    · simp [hrun] at ht
    · by_cases hhlt : i = .hlt
      · rw [hf, hhlt]
      · simp [hi.halted_eq, hhlt, hrun] at ht
  · intro hf
    rw [stepUnder_of_fetch hs hf] at h
    simpa using execUnder_halted h

/-- Settles O21: only HLT's effect touches `halted`, and a step starts from a machine that is not halted. -/
theorem haltedIsSetOnlyByHlt : Obligations.HaltedIsSetOnlyByHlt := by
  refine ⟨fun _ _ _ => stepUnder_halted_iff, fun _ _ _ _ => execUnder_halted, fun c s t hs h => ?_⟩
  simp [(stepUnder_next_running h).1] at hs

/-! ### `error` -/

/-- Settles O22: an effect keeps `error`, so a step that changes it raised, and raising changes nothing else. -/
theorem errorIsNeverCleared : Obligations.ErrorIsNeverCleared := by
  refine ⟨fun c s t hs h => hs (stepUnder_next_running h).2, fun c i s t h hs => ?_, fun c s t h hne => ?_⟩
  · rcases execUnder_next_cases h with ⟨e, -, rfl⟩ | ht
    · simp
    · rwa [ht.error_eq]
  · rcases (stepUnder_next_cases h).2 with ⟨e, -, ht⟩ | ⟨i, -, hi⟩
    · exact ⟨e, ht⟩
    · exact absurd hi.error_eq hne

/-! ### Changing a field no instruction reads -/

/-- Whether an instruction raises depends on `pc` and the registers alone. -/
theorem Raises.congr {i : Instr} {s s' : State} {e : ErrorKind} (h : Raises i s e) (hpc : s'.pc = s.pc)
    (hregs : s'.regs = s.regs) : Raises i s' e := by
  simpa only [Raises, readReg, hpc, hregs] using h

theorem popped_withOut (s : State) (o : List Byte) : popped { s with out := o } = { popped s with out := o } := by
  have hsp : readReg { s with out := o } sp = readReg s sp := rfl
  simp only [popped, hsp]
  split <;> rfl

theorem popped_withFl (s : State) (f : Byte) : popped { s with fl := f } = { popped s with fl := f } := by
  have hsp : readReg { s with fl := f } sp = readReg s sp := rfl
  simp only [popped, hsp]
  split <;> rfl

/-! ### `out` -/

/-- The bytes an instruction appends to `out`: PRN's register, where there is one, and nothing else (10_state.md R34). -/
def emittedBy (i : Instr) (s : State) : List Byte :=
  match i with
  | .prn r => if h : r.toNat < nreg then [readReg s (regOf r h)] else []
  | _ => []

theorem emittedBy_prn {r : Byte} (h : r.toNat < nreg) (s : State) :
    emittedBy (.prn r) s = [readReg s (regOf r h)] := dif_pos h

theorem emittedBy_of_not_wellFormed {i : Instr} (h : ¬ i.WellFormed) (s : State) : emittedBy i s = [] := by
  cases i with
  | prn r => exact dif_neg (by simpa [Instr.wellFormed_iff, Instr.regOperands] using h)
  | _ => rfl

theorem prn_of_emittedBy_ne_nil {i : Instr} {s : State} (h : emittedBy i s ≠ []) : ∃ r, i = .prn r := by
  cases i with
  | prn r => exact ⟨r, rfl⟩
  | _ => exact absurd rfl h

theorem emittedBy_of_raises {i : Instr} {s : State} {e : ErrorKind} (h : Raises i s e) : emittedBy i s = [] := by
  rcases h with ⟨-, hill⟩ | ⟨-, -, -, r, rfl⟩ | ⟨-, -, a, b, -, rfl, -⟩
  · exact emittedBy_of_not_wellFormed hill s
  · rfl
  · rfl

theorem Effect.out_eq {c : Config} {i : Instr} {s t : State} (h : Effect c i s t) :
    t.out = s.out ++ emittedBy i s := by
  cases i with
  | hlt | ret => subst h; simp [emittedBy]
  | prn r => obtain ⟨hr, rfl⟩ := h; simp [emittedBy_prn hr]
  | push r | pop r | jmp r | jeq r | jne r | ldi r imm => obtain ⟨_, rfl⟩ := h; simp [emittedBy]
  | call r => obtain ⟨_, _, rfl⟩ := h; simp [emittedBy]
  | add a b | sub a b | mul a b | cmp a b => obtain ⟨_, _, rfl⟩ := h; simp [emittedBy]
  | div a b => obtain ⟨_, _, _, rfl⟩ := h; simp [emittedBy]

/-- With another output before it an instruction has the same effect and appends the same bytes. -/
theorem Effect.withOut {c : Config} {i : Instr} {s t : State} (h : Effect c i s t) (o : List Byte) :
    Effect c i { s with out := o } { t with out := o ++ emittedBy i s } := by
  cases i with
  | hlt => subst h; simp only [emittedBy, List.append_nil]; rfl
  | ret => subst h; simp only [Effect, emittedBy, List.append_nil, popped_withOut s o]; rfl
  | prn r => obtain ⟨hr, rfl⟩ := h; rw [emittedBy_prn hr]; exact ⟨hr, rfl⟩
  | pop r =>
    obtain ⟨hr, rfl⟩ := h; simp only [emittedBy, List.append_nil]; exact ⟨hr, by rw [popped_withOut s o]; rfl⟩
  | push r | jmp r | jeq r | jne r | ldi r imm =>
    obtain ⟨hr, rfl⟩ := h; simp only [emittedBy, List.append_nil]; exact ⟨hr, rfl⟩
  | call r => obtain ⟨hp, hr, rfl⟩ := h; simp only [emittedBy, List.append_nil]; exact ⟨hp, hr, rfl⟩
  | add a b | sub a b | mul a b | cmp a b =>
    obtain ⟨ha, hb, rfl⟩ := h; simp only [emittedBy, List.append_nil]; exact ⟨ha, hb, rfl⟩
  | div a b => obtain ⟨ha, hb, hz, rfl⟩ := h; simp only [emittedBy, List.append_nil]; exact ⟨ha, hb, hz, rfl⟩

theorem execUnder_out {c : Config} {i : Instr} {s t : State} (h : execUnder c i s = .next t) :
    t.out = s.out ++ emittedBy i s ∧
      ∀ o, execUnder c i { s with out := o } = .next { t with out := o ++ emittedBy i s } := by
  rcases execUnder_next_cases h with ⟨e, he, rfl⟩ | ht
  · have hnil : emittedBy i s = [] := emittedBy_of_raises he
    simp only [hnil, List.append_nil, true_and]
    exact fun o => execUnder_of_raises (he.congr rfl rfl)
  · exact ⟨ht.out_eq, fun o => execUnder_of_effect (ht.withOut o)⟩

/-- Settles O23: an instruction appends `emittedBy`, whatever `out` holds. -/
theorem outputIsAppendedOnlyByPrnAndNeverRead : Obligations.OutputIsAppendedOnlyByPrnAndNeverRead := by
  refine ⟨fun c s t h hne => ?_, fun c i s t h => ?_⟩
  · rcases (stepUnder_next_cases h).2 with ⟨e, -, rfl⟩ | ⟨i, hf, hi⟩
    · exact absurd rfl hne
    · have hemit : emittedBy i s ≠ [] := fun hnil => hne (by rw [hi.out_eq, hnil, List.append_nil])
      obtain ⟨r, rfl⟩ := prn_of_emittedBy_ne_nil hemit
      exact ⟨r, hf⟩
  · obtain ⟨hout, hother⟩ := execUnder_out h
    refine ⟨emittedBy i s, hout, ?_, fun hbad => ?_, hother⟩
    · rintro r hr rfl
      exact emittedBy_prn hr s
    · by_contra hemit
      obtain ⟨r, rfl⟩ := prn_of_emittedBy_ne_nil hemit
      exact hemit (dif_neg (Nat.not_lt.mpr (hbad r rfl)))

/-! ### FL -/

theorem Effect.fl_eq {c : Config} {i : Instr} {s t : State} (h : Effect c i s t) (hcmp : ∀ a b, i ≠ .cmp a b) :
    t.fl = s.fl := by
  cases i with
  | hlt | ret => subst h; simp
  | prn r | push r | pop r | jmp r | jeq r | jne r | ldi r imm => obtain ⟨_, rfl⟩ := h; simp
  | call r => obtain ⟨_, _, rfl⟩ := h; simp
  | add a b | sub a b | mul a b => obtain ⟨_, _, rfl⟩ := h; simp
  | div a b => obtain ⟨_, _, _, rfl⟩ := h; simp
  | cmp a b => exact absurd rfl (hcmp a b)

/-- The three values CMP gives FL, each with the order it stands for (41_alu.md R118). -/
theorem compareFlags_cases (mode : CmpMode) (x y : Byte) :
    (compareKey mode x < compareKey mode y ∧ compareFlags mode x y = 0b100) ∨
    (compareKey mode x > compareKey mode y ∧ compareFlags mode x y = 0b010) ∨
    (compareKey mode x = compareKey mode y ∧ compareFlags mode x y = 0b001) := by
  rcases lt_trichotomy (compareKey mode x) (compareKey mode y) with hlt | heq | hgt
  · exact .inl ⟨hlt, if_pos hlt⟩
  · exact .inr (.inr ⟨heq, by simp [compareFlags, heq, flEqual]⟩)
  · exact .inr (.inl ⟨hgt, by simp [compareFlags, hgt, hgt.le, flGreater]⟩)

/-- Settles O24: an effect other than CMP's keeps FL, and CMP's FL is `compareFlags`. -/
theorem flagsAreWrittenOnlyByCmp : Obligations.FlagsAreWrittenOnlyByCmp := by
  refine ⟨fun c s t h hne => ?_, fun c i s t h hcmp => ?_, fun c a b s ha hb => ?_⟩
  · rcases (stepUnder_next_cases h).2 with ⟨e, -, rfl⟩ | ⟨i, hf, hi⟩
    · exact absurd rfl hne
    · by_contra hcmp
      refine hne (hi.fl_eq fun a b hi' => hcmp ⟨a, b, ?_⟩)
      rw [hf, hi']
  · rcases execUnder_next_cases h with ⟨e, -, rfl⟩ | ht
    · rfl
    · exact ht.fl_eq hcmp
  · exact ⟨_, execUnder_of_effect ⟨ha, hb, rfl⟩, compareFlags_cases c.cmpMode _ _⟩

/-- With another FL before it an instruction other than CMP has the same effect and passes that FL through; JEQ and JNE
do where bit 0 is the same. -/
theorem Effect.withFl {c : Config} {i : Instr} {s t : State} {f : Byte} (h : Effect c i s t)
    (hcmp : i.mnemonic ≠ .cmp) (hbit : i.mnemonic ∈ [Mnemonic.jeq, .jne] → f.getLsbD 0 = s.fl.getLsbD 0) :
    Effect c i { s with fl := f } { t with fl := f } := by
  cases i with
  | hlt => subst h; rfl
  | ret => subst h; simp only [Effect, popped_withFl s f]; rfl
  | pop r => obtain ⟨hr, rfl⟩ := h; exact ⟨hr, by rw [popped_withFl s f]; rfl⟩
  | jeq r | jne r =>
    obtain ⟨hr, rfl⟩ := h
    have hE : flagE { s with fl := f } = flagE s := hbit (by simp [Instr.mnemonic])
    exact ⟨hr, by rw [hE]; rfl⟩
  | prn r | push r | jmp r | ldi r imm => obtain ⟨hr, rfl⟩ := h; exact ⟨hr, rfl⟩
  | call r => obtain ⟨hp, hr, rfl⟩ := h; exact ⟨hp, hr, rfl⟩
  | add a b | sub a b | mul a b => obtain ⟨ha, hb, rfl⟩ := h; exact ⟨ha, hb, rfl⟩
  | div a b => obtain ⟨ha, hb, hz, rfl⟩ := h; exact ⟨ha, hb, hz, rfl⟩
  | cmp a b => exact absurd rfl hcmp

/-- CMP overwrites FL, so it leaves the same state from any FL before it. -/
theorem Effect.cmp_withFl {c : Config} {i : Instr} {s t : State} (h : Effect c i s t) (hcmp : i.mnemonic = .cmp)
    (f : Byte) : Effect c i { s with fl := f } t := by
  cases i with
  | cmp a b => obtain ⟨ha, hb, rfl⟩ := h; exact ⟨ha, hb, rfl⟩
  | _ => cases hcmp

/-- CMP raises only for an invalid register. -/
theorem Raises.not_wellFormed_of_cmp {i : Instr} {s : State} {e : ErrorKind} (h : Raises i s e)
    (hcmp : i.mnemonic = .cmp) : ¬ i.WellFormed := by
  rcases h with ⟨-, hill⟩ | ⟨-, -, -, r, rfl⟩ | ⟨-, -, a, b, -, rfl, -⟩
  · exact hill
  · cases hcmp
  · cases hcmp

/-- Settles O25: an instruction raises the same whatever FL holds, and its effect carries over as `Effect.withFl` and
`Effect.cmp_withFl` say. -/
theorem flagsAreReadOnlyByJeqAndJne : Obligations.FlagsAreReadOnlyByJeqAndJne := by
  intro c i s t f h
  rcases execUnder_next_cases h with ⟨e, he, rfl⟩ | ht
  · have hraise : execUnder c i { s with fl := f } = .next { s with fl := f, error := some e } :=
      execUnder_of_raises (he.congr rfl rfl)
    exact ⟨fun _ => hraise, fun hcmp hw => absurd hw (he.not_wellFormed_of_cmp hcmp), fun _ _ _ => hraise⟩
  · refine ⟨fun hi => ?_, fun hcmp _ => execUnder_of_effect (ht.cmp_withFl hcmp f), fun r hi hbit => ?_⟩
    · have hother : i.mnemonic ∉ [Mnemonic.jeq, .jne, .cmp] := hi.resolve_right (not_not_intro ht.wellFormed)
      simp only [List.mem_cons, List.not_mem_nil, or_false, not_or] at hother
      obtain ⟨hjeq, hjne, hcmp⟩ := hother
      exact execUnder_of_effect (ht.withFl hcmp fun hmem => by simp [hjeq, hjne] at hmem)
    · have hcmp : i.mnemonic ≠ .cmp := by rcases hi with rfl | rfl <;> simp [Instr.mnemonic]
      exact execUnder_of_effect (ht.withFl hcmp fun _ => hbit)

/-! ### Registers -/

theorem eq_of_readReg_writeReg_ne {q r : Reg} {v : Int} {s : State}
    (h : readReg (writeReg q v s) r ≠ readReg s r) : r = q := by
  by_contra hne
  exact h (readReg_writeReg_ne hne v s)

theorem eq_sp_of_readReg_popped_ne {r : Reg} {s : State} (h : readReg (popped s) r ≠ readReg s r) : r = sp := by
  by_contra hne
  exact h (readReg_popped_ne hne s)

theorem eq_sp_of_readReg_pushed_ne {r : Reg} {v : Byte} {s : State}
    (h : readReg (pushed v s) r ≠ readReg s r) : r = sp :=
  eq_of_readReg_writeReg_ne h

/-- `r` is the destination of a register-writing instruction (10_state.md R22). -/
def IsDestination (i : Instr) (r : Reg) : Prop :=
  i.mnemonic ∈ [Mnemonic.ldi, .pop, .add, .sub, .mul, .div] ∧ i.operands.head?.map BitVec.toNat = some r.val

/-- `r` is SP and the instruction uses the stack (10_state.md R22). -/
def IsMovedSp (i : Instr) (r : Reg) : Prop :=
  i.mnemonic ∈ [Mnemonic.push, .pop, .call, .ret] ∧ r = sp

/-- A register an effect changes is the destination or SP. -/
theorem Effect.destination_or_sp {c : Config} {i : Instr} {s t : State} {r : Reg} (h : Effect c i s t)
    (hne : readReg t r ≠ readReg s r) : IsDestination i r ∨ IsMovedSp i r := by
  cases i with
  | hlt => subst h; exact absurd rfl hne
  | prn q | jmp q | jeq q | jne q => obtain ⟨_, rfl⟩ := h; exact absurd rfl hne
  | cmp a b => obtain ⟨_, _, rfl⟩ := h; exact absurd rfl hne
  | ret => subst h; exact .inr ⟨by decide, eq_sp_of_readReg_popped_ne hne⟩
  | push q =>
    obtain ⟨_, rfl⟩ := h
    rw [readReg_setPc] at hne
    exact .inr ⟨by simp [Instr.mnemonic], eq_sp_of_readReg_pushed_ne hne⟩
  | call q =>
    obtain ⟨_, _, rfl⟩ := h
    rw [readReg_setPc] at hne
    exact .inr ⟨by simp [Instr.mnemonic], eq_sp_of_readReg_pushed_ne hne⟩
  | pop q =>
    obtain ⟨hq, rfl⟩ := h
    by_cases hr : r = regOf q hq
    · subst hr; exact .inl ⟨by simp [Instr.mnemonic], rfl⟩
    · rw [readReg_setPc, readReg_writeReg_ne hr] at hne
      exact .inr ⟨by simp [Instr.mnemonic], eq_sp_of_readReg_popped_ne hne⟩
  | ldi q imm =>
    obtain ⟨_, rfl⟩ := h
    obtain rfl := eq_of_readReg_writeReg_ne hne
    exact .inl ⟨by simp [Instr.mnemonic], rfl⟩
  | add a b | sub a b | mul a b =>
    obtain ⟨_, _, rfl⟩ := h
    obtain rfl := eq_of_readReg_writeReg_ne hne
    exact .inl ⟨by simp [Instr.mnemonic], rfl⟩
  | div a b =>
    obtain ⟨_, _, _, rfl⟩ := h
    obtain rfl := eq_of_readReg_writeReg_ne hne
    exact .inl ⟨by simp [Instr.mnemonic], rfl⟩

/-- Settles O28: an error changes no register, and an effect only its destination or SP. -/
theorem registersChangeOnlyAsDestinationOrSp : Obligations.RegistersChangeOnlyAsDestinationOrSp := by
  intro c i s t r h hne
  rcases execUnder_next_cases h with ⟨e, -, rfl⟩ | ht
  · exact absurd rfl hne
  · exact ht.destination_or_sp hne

end Sys2Proof.Machine
end

section
/-! Proofs for spec/20_memory.md: the bounds check (R41, R42), read after write (R51, R52), the canonical form (R40),
the stack primitives (R46, R47), who writes memory (R50), and that every step keeps the invariant. The last two rest on
what `Effect` does to memory, `pc` and FL, said once here for each. -/

namespace Sys2Proof

theorem Format.operandCount_le_two (f : Format) : f.operandCount ≤ 2 := by cases f <;> decide

theorem Instr.length_le_maxLength (i : Instr) : i.length ≤ maxLength :=
  Nat.succ_le_succ (Format.operandCount_le_two i.mnemonic.format)

namespace Machine

/-! ### Reading and writing one byte -/

theorem memWrite_error {s : State} {a : Nat} (v : Byte) (h : memSize ≤ a) :
    memWrite a v s = .error .outOfBounds := by
  simp [memWrite, Nat.not_lt.mpr h]

theorem sameMemoryBut_of_mem_eq_write {s t : State} {a : Nat} {v : Byte} (h : t.mem = Memory.write s.mem a v) :
    SameMemoryBut a s t := fun b hb => by
  rw [h, Memory.read_write_ne s.mem v hb]

theorem sameMemory_of_mem_eq {s t : State} (h : t.mem = s.mem) : SameMemory s t := fun a => by rw [h]

theorem Memory.read_write_same {m : Memory} (h : Memory.wf m = true) (a : Nat) (v : Byte) :
    Memory.read (Memory.write m a v) a = v := by
  rw [Memory.read_write h, if_pos rfl]

/-- Settles O3: the two sides of the bounds check. -/
theorem memReadIsBoundsChecked : Obligations.MemReadIsBoundsChecked :=
  fun _ _ => ⟨memRead_ok, memRead_error⟩

/-- Settles O4: a write below 256 is `Memory.write`, which canonical memory reads back. -/
theorem memoryReadAfterWrite : Obligations.MemoryReadAfterWrite := by
  refine fun s a v hwf => ⟨fun ha => ⟨_, memWrite_ok v ha, ?_, sameMemoryBut_of_mem_eq_write rfl, rfl⟩, memWrite_error v⟩
  rw [memRead_ok ha, Memory.read_write_same hwf]

/-! ### The canonical form -/

@[simp] theorem Memory.read_cons_self (k : Nat) (b : Byte) (m : Memory) : Memory.read ((k, b) :: m) k = b := if_pos rfl

theorem Memory.read_cons_ne {a k : Nat} (h : a ≠ k) (b : Byte) (m : Memory) :
    Memory.read ((k, b) :: m) a = Memory.read m a := if_neg h

/-- An address that reads other than the unlisted byte is not below a canonical memory's lowest. -/
theorem Memory.le_of_read_ne {m : Memory} {low a : Nat} (h : Memory.wfFrom low m = true)
    (ha : Memory.read m a ≠ unlistedByte) : low ≤ a := by
  by_contra hlt
  exact ha (Memory.read_of_wfFrom h (Nat.not_le.mp hlt))

/-- The lowest address of a canonical memory is its first cell's. -/
theorem Memory.wfFrom_head {low k : Nat} {b : Byte} {m : Memory} (h : Memory.wfFrom low ((k, b) :: m) = true) :
    Memory.wfFrom k ((k, b) :: m) = true := by
  obtain ⟨-, hk, hb, hm⟩ := Memory.wfFrom_cons h
  simp [Memory.wfFrom, hk, hb, hm]

/-- A memory that reads as another one with a canonical first cell starts no higher than that cell. -/
theorem Memory.head_le_of_read_eq {low low' k k' : Nat} {b b' : Byte} {m m' : Memory}
    (h : Memory.wfFrom low ((k, b) :: m) = true) (h' : Memory.wfFrom low' ((k', b') :: m') = true)
    (hread : ∀ a, a < memSize → Memory.read ((k, b) :: m) a = Memory.read ((k', b') :: m') a) : k' ≤ k := by
  obtain ⟨-, hk, hb, -⟩ := Memory.wfFrom_cons h
  refine Memory.le_of_read_ne (Memory.wfFrom_head h') ?_
  rwa [← hread k hk, Memory.read_cons_self]

/-- A memory with a canonical first cell does not read as the empty one. -/
theorem Memory.not_read_eq_nil {low k : Nat} {b : Byte} {m : Memory} (h : Memory.wfFrom low ((k, b) :: m) = true) :
    ¬ ∀ a, a < memSize → Memory.read ((k, b) :: m) a = Memory.read [] a := by
  obtain ⟨-, hk, hb, -⟩ := Memory.wfFrom_cons h
  intro hread
  exact hb ((Memory.read_cons_self k b m).symm.trans (hread k hk))

/-- Extensionality of the canonical form: memories that read alike have the same first cell, and so do their tails. -/
theorem Memory.eq_of_read_eq : ∀ {m m' : Memory} {low low' : Nat}, Memory.wfFrom low m = true →
    Memory.wfFrom low' m' = true → (∀ a, a < memSize → Memory.read m a = Memory.read m' a) → m = m'
  | [], [], _, _, _, _, _ => rfl
  | [], _ :: _, _, _, _, h', hread => absurd (fun a ha => (hread a ha).symm) (Memory.not_read_eq_nil h')
  | _ :: _, [], _, _, h, _, hread => absurd hread (Memory.not_read_eq_nil h)
  | (k, b) :: m, (k', b') :: m', _, _, h, h', hread => by
    obtain ⟨-, hk, -, hm⟩ := Memory.wfFrom_cons h
    obtain ⟨-, -, -, hm'⟩ := Memory.wfFrom_cons h'
    obtain rfl : k = k' := Nat.le_antisymm
      (Memory.head_le_of_read_eq h' h fun a ha => (hread a ha).symm) (Memory.head_le_of_read_eq h h' hread)
    obtain rfl : b = b' := by simpa using hread k hk
    have htail : ∀ a, a < memSize → Memory.read m a = Memory.read m' a := fun a ha => by
      by_cases hak : a = k
      · have hlow : a < k + 1 := by omega
        rw [Memory.read_of_wfFrom hm hlow, Memory.read_of_wfFrom hm' hlow]
      · simpa only [Memory.read_cons_ne hak] using hread a ha
    rw [Memory.eq_of_read_eq hm hm' htail]

/-- Settles O5: the canonical form is extensional. -/
theorem canonicalMemoriesThatReadAlikeAreEqual : Obligations.CanonicalMemoriesThatReadAlikeAreEqual :=
  fun _ _ => Memory.eq_of_read_eq

/-! ### The stack primitives -/

/-- Settles O6: `push` answers `pushed`, which writes the slot and moves SP only. -/
theorem pushDecrementsSpAndWrites : Obligations.PushDecrementsSpAndWrites :=
  fun s v hwf => ⟨pushed v s, push_eq v s, pushSlot_eq s, readReg_decSp_sp s, Memory.read_write_same hwf _ v,
    sameMemoryBut_of_mem_eq_write rfl, sameRegsBut_writeReg sp _ s, rfl, ⟨rfl, rfl, rfl⟩, rfl⟩

theorem sameRegsBut_popped (s : State) : SameRegsBut [sp] s (popped s) :=
  fun _ hq => readReg_popped_ne (List.ne_of_not_mem_cons hq) s

/-- Settles O7: `pop` answers `topByte` and `popped`, whose SP is the smaller of SP + 1 and 255. -/
theorem popReadsAndAdvancesSpBelow255 : Obligations.PopReadsAndAdvancesSpBelow255 := by
  refine fun s => ⟨topByte s, popped s, pop_eq s, rfl, fun hlt => ?_, fun htop => ?_, sameRegsBut_popped s,
    sameMemory_of_mem_eq (popped_mem s), popped_fl s, ⟨popped_halted s, popped_error s, popped_out s⟩, popped_pc s⟩
  · rw [readReg_popped_sp]; omega
  · rw [readReg_popped_sp]; omega

/-! ### What an effect does to memory -/

theorem Effect.mem_eq_write {c : Config} {i : Instr} {s t : State} (h : Effect c i s t)
    (hi : i.mnemonic ∈ [Mnemonic.push, .call]) : ∃ v, t.mem = Memory.write s.mem (pushSlot s) v := by
  cases i with
  | push r => obtain ⟨_, rfl⟩ := h; exact ⟨_, rfl⟩
  | call r => obtain ⟨_, _, rfl⟩ := h; exact ⟨_, rfl⟩
  | _ => simp [Instr.mnemonic] at hi

theorem Effect.mem_eq {c : Config} {i : Instr} {s t : State} (h : Effect c i s t)
    (hi : i.mnemonic ∉ [Mnemonic.push, .call]) : t.mem = s.mem := by
  cases i with
  | push r | call r => simp [Instr.mnemonic] at hi
  | hlt | ret => subst h; simp
  | prn r | pop r | jmp r | jeq r | jne r | ldi r imm => obtain ⟨_, rfl⟩ := h; simp
  | add a b | sub a b | mul a b | cmp a b => obtain ⟨_, _, rfl⟩ := h; simp
  | div a b => obtain ⟨_, _, _, rfl⟩ := h; simp

/-- Settles O27: an error keeps memory, and an effect writes the push slot or nothing. -/
theorem onlyPushAndCallWriteMemory : Obligations.OnlyPushAndCallWriteMemory := by
  intro c i s t h
  rcases execUnder_next_cases h with ⟨e, -, rfl⟩ | ht
  · exact ⟨fun _ _ _ => rfl, fun _ _ => rfl⟩
  · refine ⟨fun hi => ?_, fun hi => sameMemory_of_mem_eq (ht.mem_eq hi)⟩
    obtain ⟨v, hv⟩ := ht.mem_eq_write hi
    exact sameMemoryBut_of_mem_eq_write hv

/-! ### What keeps the invariant -/

theorem Effect.memory_wf {c : Config} {i : Instr} {s t : State} (h : Effect c i s t) (hs : Memory.wf s.mem = true) :
    Memory.wf t.mem = true := by
  by_cases hi : i.mnemonic ∈ [Mnemonic.push, .call]
  · obtain ⟨v, hv⟩ := h.mem_eq_write hi
    rw [hv]
    exact Memory.wf_write hs (pushSlot_lt s)
  · rwa [h.mem_eq hi]

/-- An effect advances `pc` by the instruction's length or writes a byte to it (10_state.md R25, D2). -/
theorem Effect.pc_cases {c : Config} {i : Instr} {s t : State} (h : Effect c i s t) :
    t.pc = s.pc + i.length ∨ t.pc < memSize := by
  cases i with
  | hlt => subst h; exact .inl rfl
  | ret => subst h; exact .inr (toNat_lt_memSize _)
  | jmp r => obtain ⟨_, rfl⟩ := h; exact .inr (toNat_lt_memSize _)
  | call r => obtain ⟨_, _, rfl⟩ := h; exact .inr (toNat_lt_memSize _)
  | jeq r =>
    obtain ⟨_, rfl⟩ := h
    rw [setPc_pc]
    split
    · exact .inr (toNat_lt_memSize _)
    · exact .inl rfl
  | jne r =>
    obtain ⟨_, rfl⟩ := h
    rw [setPc_pc]
    split
    · exact .inl rfl
    · exact .inr (toNat_lt_memSize _)
  | prn r | push r | pop r | ldi r imm => obtain ⟨_, rfl⟩ := h; exact .inl rfl
  | add a b | sub a b | mul a b | cmp a b => obtain ⟨_, _, rfl⟩ := h; exact .inl rfl
  | div a b => obtain ⟨_, _, _, rfl⟩ := h; exact .inl rfl

/-- The bound of the invariant: from inside memory the longest instruction reaches 255 + 3. -/
theorem Effect.pc_le {c : Config} {i : Instr} {s t : State} (h : Effect c i s t) (hs : s.pc < memSize) :
    t.pc ≤ 258 := by
  have hlen := i.length_le_maxLength
  have hmax : maxLength = 3 := rfl
  have hmem : memSize = 256 := rfl
  rcases h.pc_cases with hpc | hpc <;> omega

/-- An effect keeps FL or gives it one of CMP's three values. -/
theorem Effect.fl_cases {c : Config} {i : Instr} {s t : State} (h : Effect c i s t) :
    t.fl = s.fl ∨ t.fl = flEqual ∨ t.fl = flGreater ∨ t.fl = flLess := by
  by_cases hi : ∃ a b, i = .cmp a b
  · obtain ⟨a, b, rfl⟩ := hi
    obtain ⟨ha, hb, rfl⟩ := h
    rcases compareFlags_cases c.cmpMode (readReg s (regOf a ha)) (readReg s (regOf b hb)) with
      ⟨-, hfl⟩ | ⟨-, hfl⟩ | ⟨-, hfl⟩
    · exact .inr (.inr (.inr hfl))
    · exact .inr (.inr (.inl hfl))
    · exact .inr (.inl hfl)
  · exact .inl (h.fl_eq fun a b hab => hi ⟨a, b, hab⟩)

/-- An instruction that raises nothing keeps the invariant where it was fetched from inside memory. -/
theorem Effect.inv {c : Config} {i : Instr} {s t : State} (h : Effect c i s t) (hs : Inv s) (hpc : s.pc < memSize)
    (herr : s.error = none) : Inv t where
  memory := h.memory_wf hs.memory
  pc := h.pc_le hpc
  flags := by
    rcases h.fl_cases with hfl | hfl
    · rw [hfl]; exact hs.flags
    · exact .inr hfl
  ending := .inr (h.error_eq.trans herr)

/-- Raising an error keeps the invariant where the machine is not halted. -/
theorem Inv.withError {s : State} (hs : Inv s) (hrun : s.halted = false) (e : ErrorKind) :
    Inv { s with error := some e } where
  memory := hs.memory
  pc := hs.pc
  flags := hs.flags
  ending := .inl hrun

/-- Every step keeps the invariant, under any configuration. -/
theorem Inv.of_stepUnder_next {c : Config} {s t : State} (hs : Inv s) (h : stepUnder c s = .next t) : Inv t := by
  obtain ⟨hhalted, herr⟩ := stepUnder_next_running h
  rcases (stepUnder_next_cases h).2 with ⟨e, -, rfl⟩ | ⟨i, hf, hi⟩
  · exact hs.withError hhalted e
  · exact hi.inv hs (fetch_pc_lt hf) herr

/-- Settles O31: a step raises from a machine that is not halted or has an effect from inside memory, and both keep the
invariant. -/
theorem stepKeepsTheInvariant : Obligations.StepKeepsTheInvariant :=
  fun s hs => ⟨fun _ h => hs.of_stepUnder_next ((step_eq_stepUnder s).symm.trans h), fun _ _ => hs.of_stepUnder_next⟩

end Machine
end Sys2Proof
end

section
/-! Proofs for spec/30_encoding.md: the decode fields (R62), the shape of an instruction (R60), decode and encode
(R64 to R67), and the bytes that are no opcode (R68). Under an admissible table decoding is the inverse of encoding
(`decode_ok_iff`), and the statements about words that decode follow from it. -/

namespace Sys2Proof

/-! ### The decode fields -/

theorem operandCount_eq_div (ir : Byte) : operandCount ir = ir.toNat / 64 := by
  have hbyte : ir.toNat < 256 := ir.isLt
  rw [operandCount, BitVec.extractLsb'_toNat, Nat.shiftRight_eq_div_pow]
  omega

/-- A bit of a byte is the parity of the byte divided by the bit's weight. -/
theorem getLsbD_iff_div_mod (ir : Byte) (k : Nat) : ir.getLsbD k = true ↔ ir.toNat / 2 ^ k % 2 = 1 := by
  rw [BitVec.getLsbD, Nat.testBit_eq_decide_div_mod_eq, decide_eq_true_iff]

/-- Settles O8: a two-bit field at the top is a quotient, and a bit the parity of one. -/
theorem decodeFieldsAreBitPositions : Obligations.DecodeFieldsAreBitPositions :=
  fun ir => ⟨operandCount_eq_div ir, getLsbD_iff_div_mod ir 5, getLsbD_iff_div_mod ir 4⟩

/-! ### The opcode byte -/

/-- A byte is looked up in vain exactly when it is none of the table's. -/
theorem OpcodeTable.lookup_eq_none_iff {t : OpcodeTable} {ir : Byte} :
    t.lookup ir = none ↔ ir ∉ Mnemonic.all.map t.byteOf := by
  simp [OpcodeTable.lookup]

theorem decodeFrom_of_lookup_none {t : OpcodeTable} {read : Nat → Option Byte} {ir : Byte} (hread : read 0 = some ir)
    (h : t.lookup ir = none) : decodeFrom t read = .error (.unknownOpcode ir) := by
  simp [decodeFrom, hread, h]

theorem decode_of_lookup_none {t : OpcodeTable} {ir : Byte} (h : t.lookup ir = none) (rest : List Byte) :
    decode t (ir :: rest) = .error (.unknownOpcode ir) := by
  rw [decode, decodeFrom_of_lookup_none rfl h]

/-! ### Decoding is the inverse of encoding -/

/-- One read of the operand loop: a byte, then the operands after it. -/
theorem readOperands_succ_ok_iff {read : Nat → Option Byte} {n k : Nat} {ops : List Byte} :
    readOperands read (n + 1) k = .ok ops ↔
      ∃ b bs, ops = b :: bs ∧ read k = some b ∧ readOperands read n (k + 1) = .ok bs := by
  cases hread : read k with
  | none => simp [readOperands, hread]
  | some b => cases htail : readOperands read n (k + 1) <;> simp [readOperands, hread, htail, eq_comm]

/-- The operand bytes read from a list are the next `n` bytes of it. -/
theorem readOperands_getElem?_iff {bytes ops : List Byte} {n k : Nat} :
    readOperands (fun j => bytes[j]?) n k = .ok ops ↔ ops.length = n ∧ ops <+: bytes.drop k := by
  induction n generalizing k ops with
  | zero => cases ops <;> simp [readOperands]
  | succ n ih =>
    simp only [readOperands_succ_ok_iff, ih]
    rw [← List.tail_drop, ← List.head?_drop]
    generalize bytes.drop k = left
    cases left with
    | nil => cases ops <;> simp
    | cons b bs => cases ops <;> simp [eq_comm, and_left_comm]

/-- An instruction is decoded from its opcode byte and as many operand bytes as the opcode counts. -/
theorem decodeFrom_ok {t : OpcodeTable} {read : Nat → Option Byte} {i : Instr} (h : decodeFrom t read = .ok i) :
    read 0 = some (t.byteOf i.mnemonic) ∧
      readOperands read (operandCount (t.byteOf i.mnemonic)) 1 = .ok i.operands := by
  unfold decodeFrom at h
  split at h
  · cases h
  · next ir hread =>
    split at h
    · cases h
    · next m hlookup =>
      split at h
      · cases h
      · next ops hops =>
        split at h
        · cases h
        · next j hbuild =>
          cases h
          obtain ⟨rfl, rfl⟩ := Instr.build_some hbuild
          rw [OpcodeTable.lookup_some hlookup]
          exact ⟨hread, hops⟩

theorem decodeFrom_ok_iff {t : OpcodeTable} (ht : t.wf = true) {read : Nat → Option Byte} {i : Instr} :
    decodeFrom t read = .ok i ↔
      read 0 = some (t.byteOf i.mnemonic) ∧ readOperands read i.mnemonic.format.operandCount 1 = .ok i.operands := by
  rw [← OpcodeTable.operandCount_byteOf ht]
  refine ⟨decodeFrom_ok, fun ⟨hread, hops⟩ => ?_⟩
  simp only [decodeFrom, hread, OpcodeTable.lookup_byteOf ht, hops, Instr.build_operands]

theorem encode_append (t : OpcodeTable) (i : Instr) (rest : List Byte) :
    encode t i ++ rest = t.byteOf i.mnemonic :: (i.operands ++ rest) := rfl

theorem drop_length_encode_append (t : OpcodeTable) (i : Instr) (rest : List Byte) :
    (encode t i ++ rest).drop i.length = rest := by
  rw [Instr.length, ← Instr.operands_length, encode_append, List.drop_succ_cons, List.drop_left]

theorem decodeFrom_getElem?_iff {t : OpcodeTable} (ht : t.wf = true) {bytes : List Byte} {i : Instr} :
    decodeFrom t (fun k => bytes[k]?) = .ok i ↔ encode t i <+: bytes := by
  rw [decodeFrom_ok_iff ht, readOperands_getElem?_iff, ← Instr.operands_length]
  cases bytes with
  | nil => simp [encode]
  | cons b bs => simp [encode, eq_comm]

/-- Under an admissible table bytes decode to an instruction and a rest exactly when they are its encoding followed by
the rest. -/
theorem decode_ok_iff {t : OpcodeTable} (ht : t.wf = true) {bytes : List Byte} {i : Instr} {rest : List Byte} :
    decode t bytes = .ok (i, rest) ↔ bytes = encode t i ++ rest := by
  constructor
  · intro h
    unfold decode at h
    split at h
    · cases h
    · next j hj =>
      cases h
      obtain ⟨tail, rfl⟩ := (decodeFrom_getElem?_iff ht).mp hj
      rw [drop_length_encode_append]
  · rintro rfl
    rw [decode, (decodeFrom_getElem?_iff ht).mpr ⟨rest, rfl⟩]
    simp only [drop_length_encode_append]

/-- Settles O9: an encoding followed by a rest decodes to the instruction and the rest. -/
theorem decodeOfEncodeIsTheInstruction : Obligations.DecodeOfEncodeIsTheInstruction :=
  fun _ _ _ ht => (decode_ok_iff ht).mpr rfl

/-- Settles O10: what decodes is an encoding followed by the rest. -/
theorem onlyEncodingsDecode : Obligations.OnlyEncodingsDecode :=
  fun _ _ _ _ ht => (decode_ok_iff ht).mp

/-- Settles O11: the opcode byte counts the operands because an admissible table keeps bits 7:6; the second of two
instructions is the rest after the first. -/
theorem instructionIsOpcodeThenCountedOperands : Obligations.InstructionIsOpcodeThenCountedOperands := by
  refine fun t i j ht => ⟨⟨t.byteOf i.mnemonic, i.operands, rfl, ?_⟩, (decode_ok_iff ht).mpr rfl⟩
  rw [OpcodeTable.operandCount_byteOf ht]
  exact ⟨i.operands_length, i.mnemonic.format.operandCount_le_two⟩

/-- Settles O13: each word but the last is the encoding of its instruction, and 0 is no byte of the table. -/
theorem sampleWordsDecode : Obligations.SampleWordsDecode := by
  have hword : ∀ i : Instr, decode specTable (encode specTable i) = .ok (i, []) := fun i =>
    (decode_ok_iff specTable_wf).mpr (List.append_nil _).symm
  exact ⟨hword .hlt, hword .ret, hword (.prn 2), hword (.push 0), hword (.call 1), hword (.ldi 2 37),
    hword (.div 0 1), decode_of_lookup_none (by decide) []⟩

/-! ### The step that fetches an unlisted byte -/

namespace Machine

/-- The spec's configuration reads ahead of no operand, so a fetch is a decoding (92_eei_decisions.md D5). -/
theorem fetch_specConfig (s : State) :
    fetch specConfig s = (decodeFrom specTable fun k => byteAt s (s.pc + k)).mapError decodeErrorKind := by
  rw [fetch_eq, if_neg fun h => Bool.false_ne_true h.1]
  rfl

/-- A running machine whose fetch fails raises the fetch's error. -/
theorem step_of_fetch_error {s : State} {e : ErrorKind} (hs : s.status = .running)
    (h : fetch specConfig s = .error e) : step s = .next { s with error := some e } := by
  simp only [step, cycle, hs, h, raise]

/-- Settles O12: a byte outside the table is looked up in vain, so decoding and fetching both fail on it. -/
theorem unlistedOpcodesAreUnknown : Obligations.UnlistedOpcodesAreUnknown := by
  intro ir hir
  have hnone : specTable.lookup ir = none := OpcodeTable.lookup_eq_none_iff.mpr hir
  refine ⟨decode_of_lookup_none hnone, fun s hs hbyte => step_of_fetch_error hs ?_⟩
  rw [fetch_specConfig, decodeFrom_of_lookup_none hbyte hnone]
  rfl

end Machine
end Sys2Proof
end

section
/-! Proofs for spec/40_execution_cycle.md: the errors of fetch and decode (R91 to R93), eager operand fetch (R93), the
whole step (R98), when the engine steps (R99), and the advance of `pc` (R97). -/

namespace Sys2Proof

/-! ### Decoding from a source of bytes -/

theorem decodeFrom_of_read_none (t : OpcodeTable) {read : Nat → Option Byte} (h : read 0 = none) :
    decodeFrom t read = .error (.missingByte 0) := by
  simp [decodeFrom, h]

/-- One byte missing among those to be read is enough for the operand loop to stop at a missing byte. -/
theorem readOperands_of_read_none {read : Nat → Option Byte} {j : Nat} (hread : read j = none) :
    ∀ {n k : Nat}, k ≤ j → j < k + n → ∃ l, readOperands read n k = .error (.missingByte l)
  | 0, k, hkj, hjk => absurd hjk (Nat.not_lt.mpr hkj)
  | n + 1, k, hkj, hjk => by
    cases hk : read k with
    | none => exact ⟨k, by simp [readOperands, hk]⟩
    | some b =>
      have hne : k ≠ j := by rintro rfl; simp [hread] at hk
      obtain ⟨l, hl⟩ := readOperands_of_read_none hread (n := n) (k := k + 1) (by omega) (by omega)
      exact ⟨l, by simp [readOperands, hk, hl]⟩

/-- Under an admissible table an opcode whose last operand byte is missing decodes to a missing byte. -/
theorem decodeFrom_of_operand_none {t : OpcodeTable} (ht : t.wf = true) {read : Nat → Option Byte} {ir : Byte}
    {m : Mnemonic} (hread : read 0 = some ir) (hm : t.lookup ir = some m) (hpos : 1 ≤ m.format.operandCount)
    (hlast : read m.format.operandCount = none) : ∃ l, decodeFrom t read = .error (.missingByte l) := by
  have hcount : operandCount ir = m.format.operandCount := by
    rw [← OpcodeTable.lookup_some hm, OpcodeTable.operandCount_byteOf ht]
  obtain ⟨l, hl⟩ := readOperands_of_read_none (n := m.format.operandCount) hlast hpos (by omega)
  exact ⟨l, by simp only [decodeFrom, hread, hm, hcount, hl]⟩

/-- A source that answers every byte another one answers reads the same operands. -/
theorem readOperands_ok_mono {read read' : Nat → Option Byte} (hsub : ∀ k b, read k = some b → read' k = some b) :
    ∀ {n k : Nat} {ops : List Byte}, readOperands read n k = .ok ops → readOperands read' n k = .ok ops
  | 0, _, _, h => h
  | _ + 1, k, _, h => by
    obtain ⟨b, bs, rfl, hb, hbs⟩ := readOperands_succ_ok_iff.mp h
    exact readOperands_succ_ok_iff.mpr ⟨b, bs, rfl, hsub k b hb, readOperands_ok_mono hsub hbs⟩

theorem decodeFrom_ok_mono {t : OpcodeTable} (ht : t.wf = true) {read read' : Nat → Option Byte} {i : Instr}
    (hsub : ∀ k b, read k = some b → read' k = some b) (h : decodeFrom t read = .ok i) :
    decodeFrom t read' = .ok i := by
  obtain ⟨hopcode, hops⟩ := (decodeFrom_ok_iff ht).mp h
  exact (decodeFrom_ok_iff ht).mpr ⟨hsub 0 _ hopcode, readOperands_ok_mono hsub hops⟩

theorem decodeFrom_of_decode_ok {t : OpcodeTable} {bytes rest : List Byte} {i : Instr}
    (h : decode t bytes = .ok (i, rest)) : decodeFrom t (fun k => bytes[k]?) = .ok i := by
  unfold decode at h
  split at h
  · cases h
  · next j hj => cases h; exact hj

namespace Machine

/-! ### The bytes at `pc` -/

theorem byteAt_eq_none {a : Nat} (h : memSize ≤ a) (s : State) : byteAt s a = none := if_neg (Nat.not_lt.mpr h)

theorem lt_memSize_of_byteAt {s : State} {a : Nat} {b : Byte} (h : byteAt s a = some b) : a < memSize := by
  by_contra ha
  simp [byteAt_eq_none (Nat.not_lt.mp ha)] at h

/-- The bytes listed from an address are the bytes of memory from there. -/
theorem byteAt_of_bytesFrom_getElem? {s : State} {n a k : Nat} {b : Byte} (h : (bytesFrom s n a)[k]? = some b) :
    byteAt s (a + k) = some b := by
  induction n generalizing a k with
  | zero => simp [bytesFrom] at h
  | succ n ih =>
    cases hbyte : byteAt s a with
    | none => simp [bytesFrom, hbyte] at h
    | some b' =>
      cases k with
      | zero => simpa [bytesFrom, hbyte] using h
      | succ k =>
        have htail : byteAt s (a + 1 + k) = some b := ih (by simpa [bytesFrom, hbyte] using h)
        rwa [Nat.add_right_comm] at htail

/-- Settles O14: memory answers every byte the list at `pc` holds, so the fetch decodes the same instruction. -/
theorem stepRunsTheDecodedInstruction : Obligations.StepRunsTheDecodedInstruction := by
  intro s i rest hs h
  have hdecode : decodeFrom specTable (fun k => byteAt s (s.pc + k)) = .ok i :=
    decodeFrom_ok_mono specTable_wf (fun _ _ => byteAt_of_bytesFrom_getElem?) (decodeFrom_of_decode_ok h)
  have hfetch : fetch specConfig s = .ok i := by rw [fetch_specConfig, hdecode]; rfl
  rw [step_eq_stepUnder, stepUnder_of_fetch hs hfetch, execUnder_specConfig]

/-! ### The errors of fetch and decode -/

/-- Under the spec's configuration a byte missing at decode is a fetch past the end of memory. -/
theorem fetch_of_missingByte {s : State} {l : Nat}
    (h : decodeFrom specTable (fun k => byteAt s (s.pc + k)) = .error (.missingByte l)) :
    fetch specConfig s = .error .outOfBounds := by
  rw [fetch_specConfig, h]; rfl

theorem fetch_of_lookup_none {s : State} {ir : Byte} (hbyte : byteAt s s.pc = some ir)
    (h : specTable.lookup ir = none) : fetch specConfig s = .error .unknownOpcode := by
  rw [fetch_specConfig, decodeFrom_of_lookup_none hbyte h]; rfl

/-- Settles O16: no opcode byte, an opcode looked up in vain, and a last operand byte that is missing, in the order in
which the decoder comes to them. -/
theorem fetchErrorsComeInOrder : Obligations.FetchErrorsComeInOrder := by
  refine fun s hs => ⟨fun hpc => ?_, fun ir hbyte => ⟨fun hnone => ?_, fun m hm hend => ?_⟩⟩
  · have hopcode : byteAt s (s.pc + 0) = none := byteAt_eq_none hpc s
    exact step_of_fetch_error hs (fetch_of_missingByte (decodeFrom_of_read_none specTable hopcode))
  · exact step_of_fetch_error hs (fetch_of_lookup_none hbyte hnone)
  · have hpos : 1 ≤ m.format.operandCount := by
      have hpc : s.pc < 256 := lt_memSize_of_byteAt hbyte
      omega
    obtain ⟨l, hl⟩ := decodeFrom_of_operand_none (read := fun k => byteAt s (s.pc + k)) specTable_wf hbyte hm hpos
      (byteAt_eq_none hend s)
    exact step_of_fetch_error hs (fetch_of_missingByte hl)

/-! ### Eager operand fetch -/

theorem stepUnder_of_fetch_error {c : Config} {s : State} {e : ErrorKind} (hs : s.status = .running)
    (h : fetch c s = .error e) : stepUnder c s = .next { s with error := some e } := by
  simp only [stepUnder, cycle, hs, h, raise]

theorem execUnder_congr {c c' : Config} (hmode : c.cmpMode = c'.cmpMode) : execUnder c = execUnder c' := by
  funext i s
  cases i with
  | cmp a b => simp only [execUnder, hmode]
  | _ => rfl

/-- A step depends on the configuration through what it fetches and CMP_MODE. -/
theorem stepUnder_congr {c c' : Config} {s : State} (hfetch : fetch c s = fetch c' s)
    (hmode : c.cmpMode = c'.cmpMode) : stepUnder c s = stepUnder c' s := by
  simp only [stepUnder, cycle, hfetch, execUnder_congr hmode]

/-- Away from the end of memory a fetch is a decoding, eager or not. -/
theorem fetch_of_pc_add_two_lt {s : State} (h : s.pc + 2 < memSize) (c : Config) :
    fetch c s = (decodeFrom c.opcodeTable fun k => byteAt s (s.pc + k)).mapError decodeErrorKind := by
  rw [fetch_eq, if_neg fun htop => Nat.not_le.mpr h htop.2]

/-- Settles O17: below the last two bytes both fetches are the same decoding; at them the eager reads fail. -/
theorem eagerFetchMattersOnlyAtTheTop : Obligations.EagerFetchMattersOnlyAtTheTop := by
  refine fun c s hs => ⟨fun hlow => stepUnder_congr ?_ rfl, fun htop => stepUnder_of_fetch_error hs ?_⟩
  · rw [fetch_of_pc_add_two_lt hlow, fetch_of_pc_add_two_lt hlow]
  · rw [fetch_eq, if_pos ⟨rfl, htop⟩]

/-! ### When the engine steps -/

theorem stepUnder_of_running (c : Config) {s : State} (hs : s.status = .running) : ∃ t, stepUnder c s = .next t := by
  rcases stepUnder_cases c s with ⟨h, -⟩ | ⟨e, h, -⟩ | ⟨-, e, -, ht⟩ | ⟨-, i, t, -, -, ht⟩
  · simp [hs] at h
  · simp [hs] at h
  · exact ⟨_, ht⟩
  · exact ⟨t, ht⟩

/-- Whatever the fuel, a run that neither halts nor fails has come to neither of the two ends. -/
theorem diverges_of_not_ended {c : Config} {s : State} (hhalt : ∀ t, ¬ HaltsAt c s t) (hsafe : SafeRun c s) :
    Diverges c s := by
  intro n
  cases hrun : runUnder c n s with
  | ok t => exact absurd ⟨n, hrun⟩ (hhalt t)
  | error e t => exact absurd ⟨n, hrun⟩ (hsafe e t)
  | goesOn t => exact ⟨t, rfl⟩

/-- Settles O18: `stepUnder_cases` read both ways, and the two ends of a run excluded. -/
theorem engineStopsOnlyAtHaltOrError : Obligations.EngineStopsOnlyAtHaltOrError :=
  fun c s => ⟨fun hhalted herr => stepUnder_of_running c ((status_running_iff s).mpr ⟨hhalted, herr⟩),
    fun _ => stepUnder_next_running, diverges_of_not_ended⟩

/-! ### The advance of `pc` -/

theorem Effect.pc_eq_add_length {c : Config} {i : Instr} {s t : State} (h : Effect c i s t)
    (hi : i.mnemonic ∉ [Mnemonic.jmp, .jeq, .jne, .call, .ret]) : t.pc = s.pc + i.length := by
  cases i with
  | ret | jmp r | jeq r | jne r | call r => simp [Instr.mnemonic] at hi
  | hlt => subst h; rfl
  | prn r | push r | pop r | ldi r imm => obtain ⟨_, rfl⟩ := h; rfl
  | add a b | sub a b | mul a b | cmp a b => obtain ⟨_, _, rfl⟩ := h; rfl
  | div a b => obtain ⟨_, _, _, rfl⟩ := h; rfl

theorem Effect.pc_lt_memSize {c : Config} {i : Instr} {s t : State} (h : Effect c i s t)
    (hi : i.mnemonic ∈ [Mnemonic.jmp, .call, .ret]) : t.pc < memSize := by
  cases i with
  | ret => subst h; exact toNat_lt_memSize _
  | jmp r => obtain ⟨_, rfl⟩ := h; exact toNat_lt_memSize _
  | call r => obtain ⟨_, _, rfl⟩ := h; exact toNat_lt_memSize _
  | _ => simp [Instr.mnemonic] at hi

/-- JEQ writes a byte to `pc` when E is set and advances otherwise (90_conflicts.md C1). -/
theorem Effect.jeq_pc {c : Config} {i : Instr} {s t : State} (h : Effect c i s t) (hi : i.mnemonic = .jeq) :
    if flagE s then t.pc < memSize else t.pc = s.pc + i.length := by
  cases i with
  | jeq r =>
    obtain ⟨_, rfl⟩ := h
    rw [setPc_pc]
    split
    · exact toNat_lt_memSize _
    · rfl
  | _ => cases hi

/-- JNE advances when E is set and writes a byte to `pc` otherwise (90_conflicts.md C1). -/
theorem Effect.jne_pc {c : Config} {i : Instr} {s t : State} (h : Effect c i s t) (hi : i.mnemonic = .jne) :
    if flagE s then t.pc = s.pc + i.length else t.pc < memSize := by
  cases i with
  | jne r =>
    obtain ⟨_, rfl⟩ := h
    rw [setPc_pc]
    split
    · rfl
    · exact toNat_lt_memSize _
  | _ => cases hi

/-- An instruction that leaves no error raised none, so it had its effect. -/
theorem effect_of_execUnder_next {c : Config} {i : Instr} {s t : State} (h : execUnder c i s = .next t)
    (ht : t.error = none) : Effect c i s t := by
  rcases execUnder_next_cases h with ⟨e, -, rfl⟩ | heffect
  · cases ht
  · exact heffect

/-- Settles O29: what an effect does to `pc`, by the four classes of instructions. -/
theorem pcAdvancesUnlessWritten : Obligations.PcAdvancesUnlessWritten := by
  intro c i s t _ h ht
  have heffect : Effect c i s t := effect_of_execUnder_next h ht
  exact ⟨heffect.pc_eq_add_length, heffect.pc_lt_memSize, heffect.jeq_pc, heffect.jne_pc⟩

end Machine
end Sys2Proof
end

section
/-! Proofs for spec/41_alu.md: ADD, SUB, MUL, DIV (R110 to R116), CMP (R118), the two compare modes (R119) and the
operation the ALU does not have (R121). An instruction that raises nothing runs to its `Effect`; the four that write a
register share one frame, and the flags of CMP follow the order of the keys it compares. -/

namespace Sys2Proof

theorem u8_natCast_toNat (n : Nat) : (u8 n).toNat = n % 256 := by
  rw [u8_toNat]
  omega

namespace Machine

/-! ### Running one instruction under the spec's configuration -/

theorem exec_of_effect {i : Instr} {s t : State} (h : Effect specConfig i s t) : exec i s = .next t := by
  rw [← execUnder_specConfig, execUnder_of_effect h]

theorem exec_of_raises {i : Instr} {s : State} {e : ErrorKind} (h : Raises i s e) :
    exec i s = .next { s with error := some e } := by
  rw [← execUnder_specConfig, execUnder_of_raises h]

/-! ### The frame of an instruction that writes one register -/

theorem frame_setPc_writeReg (p : Nat) (r : Reg) (v : Int) (s : State) :
    SameRegsBut [r] s (setPc p (writeReg r v s)) ∧ SameFlags s (setPc p (writeReg r v s)) ∧
      SameMemory s (setPc p (writeReg r v s)) ∧ SameEnd s (setPc p (writeReg r v s)) ∧
      (setPc p (writeReg r v s)).pc = p :=
  ⟨sameRegsBut_writeReg r v s, rfl, sameMemory_of_mem_eq rfl, ⟨rfl, rfl, rfl⟩, rfl⟩

theorem readReg_setPc_writeReg (p : Nat) (r : Reg) (v : Int) (s : State) :
    readReg (setPc p (writeReg r v s)) r = u8 v := by
  rw [readReg_setPc, readReg_writeReg_same]

/-! ### The results, as bytes (41_alu.md R120) -/

theorem u8_aluSum_toNat (x y : Byte) : (u8 (aluSum x y)).toNat = (x.toNat + y.toNat) % 256 :=
  u8_natCast_toNat (x.toNat + y.toNat)

theorem u8_aluDifference_toNat (x y : Byte) :
    ((u8 (aluDifference x y)).toNat : Int) = (x.toNat - y.toNat : Int) % 256 :=
  u8_toNat_int _

theorem u8_aluProduct_toNat (x y : Byte) : (u8 (aluProduct x y)).toNat = x.toNat * y.toNat % 256 :=
  u8_natCast_toNat (x.toNat * y.toNat)

/-- A quotient fits a byte, so it needs no masking (41_alu.md R116). -/
theorem u8_aluQuotient_toNat (x y : Byte) : (u8 (aluQuotient x y)).toNat = x.toNat / y.toNat := by
  have hfits : x.toNat / y.toNat < 256 := (Nat.div_le_self _ _).trans_lt x.isLt
  rw [aluQuotient, u8_natCast_toNat, Nat.mod_eq_of_lt hfits]

/-! ### ADD, SUB, MUL, DIV -/

/-- Settles O36: ADD's effect writes `aluSum`. -/
theorem addWritesTheSumModulo256 : Obligations.AddWritesTheSumModulo256 := by
  refine fun s a b ha hb => ⟨_, exec_of_effect ⟨ha, hb, rfl⟩, ?_, frame_setPc_writeReg _ _ _ _⟩
  rw [readReg_setPc_writeReg, u8_aluSum_toNat]

/-- Settles O37: SUB's effect writes `aluDifference`. -/
theorem subWritesTheDifferenceModulo256 : Obligations.SubWritesTheDifferenceModulo256 := by
  refine fun s a b ha hb => ⟨_, exec_of_effect ⟨ha, hb, rfl⟩, ?_, frame_setPc_writeReg _ _ _ _⟩
  rw [readReg_setPc_writeReg, u8_aluDifference_toNat]

/-- Settles O38: MUL's effect writes `aluProduct`. -/
theorem mulWritesTheLowByteOfTheProduct : Obligations.MulWritesTheLowByteOfTheProduct := by
  refine fun s a b ha hb => ⟨_, exec_of_effect ⟨ha, hb, rfl⟩, ?_, frame_setPc_writeReg _ _ _ _⟩
  rw [readReg_setPc_writeReg, u8_aluProduct_toNat]

/-- Settles O39: DIV's effect writes `aluQuotient`, which the two inequalities of the floor bound. -/
theorem divWritesTheFloorOfTheQuotient : Obligations.DivWritesTheFloorOfTheQuotient := by
  intro s a b ha hb hdivisor
  have hne : readReg s (regOf b hb) ≠ 0 := fun h => hdivisor (by rw [h]; rfl)
  refine ⟨_, exec_of_effect ⟨ha, hb, hne, rfl⟩, ?_, ?_, frame_setPc_writeReg _ _ _ _⟩
  · rw [readReg_setPc_writeReg, u8_aluQuotient_toNat]
    exact Nat.div_mul_le_self _ _
  · rw [readReg_setPc_writeReg, u8_aluQuotient_toNat, Nat.mul_comm]
    exact Nat.lt_mul_div_succ _ (Nat.pos_of_ne_zero hdivisor)

/-- Settles O40: a zero divisor is a reason to raise, and raising changes only `error`. -/
theorem divByZeroRaisesAndChangesNothing : Obligations.DivByZeroRaisesAndChangesNothing := by
  intro s a b ha hb hdivisor
  have hwf : (Instr.div a b).WellFormed := Instr.wellFormed_iff.mpr (by simp [Instr.regOperands, ha, hb])
  have hzero : readReg s (regOf b hb) = 0 := BitVec.eq_of_toNat_eq hdivisor
  exact exec_of_raises (.inr (.inr ⟨rfl, hwf, a, b, hb, rfl, hzero⟩))

/-! ### CMP -/

theorem compareFlags_of_lt {mode : CmpMode} {x y : Byte} (h : compareKey mode x < compareKey mode y) :
    compareFlags mode x y = flLess := if_pos h

theorem compareFlags_of_gt {mode : CmpMode} {x y : Byte} (h : compareKey mode x > compareKey mode y) :
    compareFlags mode x y = flGreater :=
  (if_neg (lt_asymm h)).trans (if_pos h)

theorem compareFlags_of_eq {mode : CmpMode} {x y : Byte} (h : compareKey mode x = compareKey mode y) :
    compareFlags mode x y = flEqual :=
  (if_neg h.not_lt).trans (if_neg h.not_gt)

/-- FL says Less alone (10_state.md R26, R27), and so for the two below. -/
theorem flags_of_fl_eq_flLess {t : State} (h : t.fl = flLess) :
    t.fl = 0b100 ∧ flagL t = true ∧ flagG t = false ∧ flagE t = false := by
  rw [flagL, flagG, flagE, h]; decide

theorem flags_of_fl_eq_flGreater {t : State} (h : t.fl = flGreater) :
    t.fl = 0b010 ∧ flagL t = false ∧ flagG t = true ∧ flagE t = false := by
  rw [flagL, flagG, flagE, h]; decide

theorem flags_of_fl_eq_flEqual {t : State} (h : t.fl = flEqual) :
    t.fl = 0b001 ∧ flagL t = false ∧ flagG t = false ∧ flagE t = true := by
  rw [flagL, flagG, flagE, h]; decide

/-- Settles O41: CMP's effect writes `compareFlags` of the bytes' own values, the keys of the unsigned mode. -/
theorem cmpSetsExactlyOneFlag : Obligations.CmpSetsExactlyOneFlag := by
  refine fun s a b ha hb => ⟨_, exec_of_effect ⟨ha, hb, rfl⟩, fun hlt => flags_of_fl_eq_flLess ?_,
    fun hgt => flags_of_fl_eq_flGreater ?_, fun heq => flags_of_fl_eq_flEqual ?_,
    fun _ _ => rfl, sameMemory_of_mem_eq rfl, ⟨rfl, rfl, rfl⟩, rfl⟩
  · exact compareFlags_of_lt (Int.ofNat_lt.mpr hlt)
  · exact compareFlags_of_gt (Int.ofNat_lt.mpr hgt)
  · exact compareFlags_of_eq (congrArg Int.ofNat heq)

/-! ### The two compare modes -/

/-- The flags depend on the order of the keys alone. -/
theorem compareFlags_congr {mode mode' : CmpMode} {x y x' y' : Byte}
    (hlt : compareKey mode x < compareKey mode y ↔ compareKey mode' x' < compareKey mode' y')
    (hgt : compareKey mode y < compareKey mode x ↔ compareKey mode' y' < compareKey mode' x') :
    compareFlags mode x y = compareFlags mode' x' y' := by
  simp only [compareFlags, gt_iff_lt, hlt, hgt]

/-- Exchanging two bytes with different keys exchanges Less and Greater. -/
theorem compareFlags_swap_ne {mode : CmpMode} {x y : Byte} (h : compareKey mode x ≠ compareKey mode y) :
    compareFlags mode x y ≠ compareFlags mode y x := by
  rcases lt_or_gt_of_ne h with hlt | hgt
  · rw [compareFlags_of_lt hlt, compareFlags_of_gt hlt]; decide
  · rw [compareFlags_of_gt hgt, compareFlags_of_lt hgt]; decide

/-- On one side of 128 `s8` keeps the order of two bytes. -/
theorem s8_lt_iff_of_same_side {x y : Byte} (h : x.toNat < 128 ↔ y.toNat < 128) :
    s8 x < s8 y ↔ (x.toNat : Int) < y.toNat := by
  unfold s8
  split <;> split <;> omega

/-- Across 128 `s8` reverses the order of two bytes. -/
theorem s8_lt_iff_of_other_side {x y : Byte} (h : ¬ (x.toNat < 128 ↔ y.toNat < 128)) :
    s8 x < s8 y ↔ (y.toNat : Int) < x.toNat := by
  have hx := x.isLt
  have hy := y.isLt
  unfold s8
  split <;> split <;> omega

theorem compareFlags_signed_of_same_side {x y : Byte} (h : x.toNat < 128 ↔ y.toNat < 128) :
    compareFlags .signed x y = compareFlags .unsigned x y :=
  compareFlags_congr (s8_lt_iff_of_same_side h) (s8_lt_iff_of_same_side h.symm)

theorem compareFlags_signed_of_other_side {x y : Byte} (h : ¬ (x.toNat < 128 ↔ y.toNat < 128)) :
    compareFlags .signed x y = compareFlags .unsigned y x :=
  compareFlags_congr (s8_lt_iff_of_other_side h) (s8_lt_iff_of_other_side (h ∘ Iff.symm))

/-- Settles O42: on one side of 128 the modes agree; across it the signed flags are the unsigned flags of the bytes
exchanged, which differ because the bytes do. -/
theorem compareModesDifferExactlyAcross128 : Obligations.CompareModesDifferExactlyAcross128 := by
  refine fun x y => ⟨⟨fun hne hside => ?_, fun hside => ?_⟩, compareFlags_signed_of_other_side⟩
  · exact hne (compareFlags_signed_of_same_side hside).symm
  · have hkey : compareKey .unsigned x ≠ compareKey .unsigned y := fun h =>
      hside (by rw [Int.ofNat_inj.mp h])
    rw [compareFlags_signed_of_other_side hside]
    exact compareFlags_swap_ne hkey

/-! ### The operation the ALU does not have -/

theorem aluApply_of_not_mem {m : Mnemonic} (h : m ∉ [Mnemonic.add, .sub, .mul, .div, .cmp]) (mode : CmpMode)
    (a b : Reg) (s : State) : aluApply mode m a b s = .error .unsupportedOperation := by
  cases m with
  | add | sub | mul | div | cmp => simp at h
  | hlt | ret | prn | push | pop | call | jmp | jeq | jne | ldi => rfl

/-- Settles O20: a step raises another kind, or has an effect, which keeps the `none` it began with. -/
theorem unsupportedOperationIsNeverRaised : Obligations.UnsupportedOperationIsNeverRaised := by
  refine ⟨fun c s t h => ?_, fun mode m a b s hm => aluApply_of_not_mem hm mode a b s⟩
  have hnone : s.error = none := (stepUnder_next_running h).2
  rcases (stepUnder_next_cases h).2 with ⟨e, he, rfl⟩ | ⟨i, -, hi⟩
  · exact fun herr => he (Option.some.inj herr)
  · simp [hi.error_eq, hnone]

end Machine
end Sys2Proof
end

section
/-! Proofs for spec/42_load_and_print.md: LDI (R130) and PRN (R132), each read off its `Effect`. -/

namespace Sys2Proof.Machine

/-- Settles O43: LDI's effect writes the immediate, a byte already, so masking keeps it; the frame is that of every
instruction that writes one register. -/
theorem ldiWritesTheImmediate : Obligations.LdiWritesTheImmediate := by
  refine fun s r imm h => ⟨_, exec_of_effect ⟨h, rfl⟩, ?_, frame_setPc_writeReg _ _ _ _⟩
  rw [readReg_setPc_writeReg, u8_toNat_cast]

/-- Emitting a byte and moving `pc` changes `out` and `pc` alone (10_state.md R34). -/
theorem frame_setPc_emit (p : Nat) (b : Byte) (s : State) :
    SameRegsBut [] s (setPc p (emit b s)) ∧ SameFlags s (setPc p (emit b s)) ∧ SameMemory s (setPc p (emit b s)) ∧
      (setPc p (emit b s)).halted = s.halted ∧ (setPc p (emit b s)).error = s.error ∧
      (setPc p (emit b s)).pc = p :=
  ⟨fun _ _ => rfl, rfl, sameMemory_of_mem_eq rfl, rfl, rfl, rfl⟩

/-- Settles O44: PRN's effect emits the byte of the register its operand names. -/
theorem prnAppendsTheRegister : Obligations.PrnAppendsTheRegister := by
  refine fun s r h => ⟨_, exec_of_effect ⟨h, rfl⟩, ?_, frame_setPc_emit _ _ _⟩
  rw [setPc_out, emit_out]

end Sys2Proof.Machine
end

section
/-! Proofs for spec/43_stack.md: PUSH (R140) and POP (R142), each read off its `Effect`, and a POP after a PUSH, which
follows from what the two say. -/

namespace Sys2Proof.Machine

/-! ### PUSH -/

/-- Pushing a byte and moving `pc` changes the push slot, SP and `pc` alone (20_memory.md R46). -/
theorem frame_setPc_pushed (p : Nat) (v : Byte) (s : State) :
    SameMemoryBut (pushSlot s) s (setPc p (pushed v s)) ∧ SameRegsBut [sp] s (setPc p (pushed v s)) ∧
      SameFlags s (setPc p (pushed v s)) ∧ SameEnd s (setPc p (pushed v s)) ∧ (setPc p (pushed v s)).pc = p :=
  ⟨sameMemoryBut_of_mem_eq_write rfl, sameRegsBut_writeReg sp _ s, rfl, ⟨rfl, rfl, rfl⟩, rfl⟩

/-- Settles O45: PUSH's effect pushes the register's value in the state it starts from, SP's own included (D12). -/
theorem pushStoresTheRegister : Obligations.PushStoresTheRegister :=
  fun s _ h hwf => ⟨_, exec_of_effect ⟨h, rfl⟩, pushSlot_eq s, readReg_decSp_sp s, Memory.read_write_same hwf _ _,
    frame_setPc_pushed _ _ _⟩

/-! ### POP -/

/-- Popping, writing a register and moving `pc` changes that register, SP and `pc` alone (20_memory.md R47). -/
theorem frame_setPc_writeReg_popped (p : Nat) (r : Reg) (v : Int) (s : State) :
    SameRegsBut [r, sp] s (setPc p (writeReg r v (popped s))) ∧
      SameMemory s (setPc p (writeReg r v (popped s))) ∧ SameFlags s (setPc p (writeReg r v (popped s))) ∧
      SameEnd s (setPc p (writeReg r v (popped s))) ∧ (setPc p (writeReg r v (popped s))).pc = p := by
  refine ⟨fun q hq => ?_, sameMemory_of_mem_eq (popped_mem s), popped_fl s,
    ⟨popped_halted s, popped_error s, popped_out s⟩, rfl⟩
  obtain ⟨hqr, hqsp⟩ : q ≠ r ∧ q ≠ sp := by simpa using hq
  rw [readReg_setPc, readReg_writeReg_ne hqr, readReg_popped_ne hqsp]

/-- Settles O46: POP's effect writes the popped byte last, so that it is what the register holds, SP included (D13);
any other register leaves SP as `popped` does. -/
theorem popLoadsTheRegister : Obligations.PopLoadsTheRegister := by
  refine fun s r h => ⟨_, exec_of_effect ⟨h, rfl⟩, ?_, fun hne => ?_, frame_setPc_writeReg_popped _ _ _ _⟩
  · rw [readReg_setPc_writeReg, u8_toNat_cast, topByte]
  · rw [readReg_setPc, readReg_writeReg_ne hne.symm, readReg_popped_sp]
    split <;> omega

/-! ### PUSH, then POP -/

/-- One step below 256 down modulo 256 and one up to at most 255 comes back, except from 0 (20_memory.md R46, R47). -/
theorem sp_after_push_pop {n m : Nat} (hn : n < 256) (hm : m = (n + 255) % 256) :
    (if m < 255 then m + 1 else 255) = if n = 0 then 255 else n := by
  split <;> split <;> omega

/-- Settles O54: SP is the push slot when the POP reads, and the slot then holds the byte pushed. -/
theorem popAfterPushGivesThePushedValue : Obligations.PopAfterPushGivesThePushedValue := by
  intro s r q hr hq hwf hne
  obtain ⟨t, hpush, hslot, htsp, hpushed, -, htregs, -, -, htpc⟩ := pushStoresTheRegister s r hr hwf
  obtain ⟨u, hpop, hloaded, husp, huregs, -, -, -, hupc⟩ := popLoadsTheRegister t q hq
  refine ⟨t, u, hpush, hpop, ?_, ?_, fun k hk => ?_, ?_⟩
  · rw [hloaded, htsp, hpushed]
  · rw [husp hne, htsp]
    exact sp_after_push_pop (readReg s sp).isLt hslot
  · have hksp : k ∉ [sp] := fun h => hk (List.mem_cons_of_mem _ h)
    rw [huregs k hk, htregs k hksp]
  · rw [hupc, htpc]

end Sys2Proof.Machine
end

section
/-! Proofs for spec/44_control_transfer.md: JMP (R150), JEQ (R152), JNE (R154), CALL (R156, R158) and RET (R160), each
read off its `Effect`, and a RET after a CALL, which follows from what the two say. -/

namespace Sys2Proof.Machine

/-! ### JMP, JEQ, JNE -/

/-- Moving `pc` changes `pc` alone (10_state.md R24). -/
theorem frame_setPc (p : Nat) (s : State) :
    SameRegsBut [] s (setPc p s) ∧ SameFlags s (setPc p s) ∧ SameMemory s (setPc p s) ∧ SameEnd s (setPc p s) :=
  ⟨fun _ _ => rfl, rfl, sameMemory_of_mem_eq rfl, rfl, rfl, rfl⟩

/-- Settles O47: JMP's effect moves `pc` to the register's value. -/
theorem jmpGoesToTheRegister : Obligations.JmpGoesToTheRegister :=
  fun _ _ h => ⟨_, exec_of_effect ⟨h, rfl⟩, rfl, frame_setPc _ _⟩

/-- Settles O48: JEQ's effect moves `pc` to one of two targets, chosen by E, which is bit 0 of FL. -/
theorem jeqBranchesOnEqual : Obligations.JeqBranchesOnEqual :=
  fun _ _ h => ⟨_, exec_of_effect ⟨h, rfl⟩, fun hset => if_pos hset,
    fun hclear => if_neg (ne_true_of_eq_false hclear), frame_setPc _ _⟩

/-- Settles O49: JNE's effect has JEQ's two targets exchanged. -/
theorem jneBranchesOnNotEqual : Obligations.JneBranchesOnNotEqual :=
  fun _ _ h => ⟨_, exec_of_effect ⟨h, rfl⟩, fun hclear => if_neg (ne_true_of_eq_false hclear),
    fun hset => if_pos hset, frame_setPc _ _⟩

/-! ### CALL -/

/-- A return address that fits a byte is pushed whole. -/
theorem u8_returnAddress_toNat {n : Nat} (h : n + 2 ≤ 255) : (u8 (n + 2)).toNat = n + 2 := by
  rw [u8_toNat]
  omega

/-- Settles O50: CALL's effect pushes the return address and reads its target after the push, so that R7 gives the new
SP (D11) and any other register its old value. -/
theorem callPushesTheReturnAddress : Obligations.CallPushesTheReturnAddress := by
  intro s r h hwf hpc
  obtain ⟨hmem, hregs, hflags, hend, -⟩ :=
    frame_setPc_pushed (readReg (decSp s) (regOf r h)).toNat (u8 (s.pc + 2)) s
  refine ⟨_, exec_of_effect ⟨hpc, h, rfl⟩, pushSlot_eq s, readReg_decSp_sp s, ?_, fun hne => ?_, fun heq => ?_,
    hmem, hregs, hflags, hend⟩
  · rw [setPc_mem, pushed_mem, Memory.read_write_same hwf, u8_returnAddress_toNat hpc]
  · rw [setPc_pc, readReg_decSp_ne hne]
  · rw [setPc_pc, heq, readReg_decSp_sp]

/-- Settles O51: a return address above 255 is a reason to raise, and raising changes only `error`. -/
theorem callNearTheTopRaisesOutOfBounds : Obligations.CallNearTheTopRaisesOutOfBounds := by
  intro s r h hpc
  have hwf : (Instr.call r).WellFormed := Instr.wellFormed_iff.mpr (by simp [Instr.regOperands, h])
  exact exec_of_raises (.inr (.inl ⟨rfl, hwf, hpc, r, rfl⟩))

/-! ### RET -/

/-- Settles O52: RET's effect moves `pc` to the popped byte and leaves the rest as `popped` does. -/
theorem retGoesToThePoppedByte : Obligations.RetGoesToThePoppedByte := by
  refine fun s => ⟨_, exec_of_effect rfl, rfl, ?_, sameRegsBut_popped s, sameMemory_of_mem_eq (popped_mem s),
    popped_fl s, popped_halted s, popped_error s, popped_out s⟩
  rw [readReg_setPc, readReg_popped_sp]
  split <;> omega

/-! ### CALL, then RET -/

/-- Settles O55: SP is the push slot when the RET reads, and the slot still holds the return address. -/
theorem retAfterCallResumesAfterTheCall : Obligations.RetAfterCallResumesAfterTheCall := by
  intro s r h hwf hpc
  obtain ⟨t, hcall, hslot, htsp, hpushed, -⟩ := callPushesTheReturnAddress s r h hwf hpc
  refine ⟨t, hcall, fun u hsp hbyte => ?_⟩
  obtain ⟨v, hret, hvpc, hvsp, hvregs, hvmem, -⟩ := retGoesToThePoppedByte u
  have husp : (readReg u sp).toNat = pushSlot s := by rw [hsp, htsp]
  refine ⟨v, hret, ?_, ?_, hvregs, hvmem⟩
  · rw [hvpc, husp, hbyte, hpushed]
  · rw [hvsp, husp]
    exact sp_after_push_pop (readReg s sp).isLt hslot

end Sys2Proof.Machine
end

section
/-! Proof for spec/45_halt.md: HLT (R170), read off its `Effect`. -/

namespace Sys2Proof.Machine

/-- Halting and moving `pc` changes `halted` and `pc` alone (45_halt.md R170). -/
theorem frame_setPc_halt (p : Nat) (s : State) :
    (setPc p (halt s)).error = s.error ∧ (setPc p (halt s)).out = s.out ∧ SameRegsBut [] s (setPc p (halt s)) ∧
      SameFlags s (setPc p (halt s)) ∧ SameMemory s (setPc p (halt s)) :=
  ⟨rfl, rfl, fun _ _ => rfl, rfl, sameMemory_of_mem_eq rfl⟩

/-- Settles O53: HLT has its effect in every state, having no operand to refuse, and the effect sets `halted` and
advances `pc` past the one byte of the instruction (D15). -/
theorem hltSetsHalted : Obligations.HltSetsHalted := by
  intro s
  have heffect : Effect specConfig .hlt s (setPc (s.pc + 1) (halt s)) := rfl
  exact ⟨_, exec_of_effect heffect, heffect.halted_eq, setPc_pc _ _, frame_setPc_halt _ _⟩

end Sys2Proof.Machine
end

section
/-! Proof for spec/60_exceptions.md: what an error does to the machine (R181, R184, R185). That the raising step keeps
every other field, and that a failed machine takes no step, is O22. -/

namespace Sys2Proof.Machine

/-- The run returns a raised kind after the one step that raised it (60_exceptions.md R184). -/
theorem failsAt_of_stepUnder_next {c : Config} {s t : State} {e : ErrorKind} (h : stepUnder c s = .next t)
    (ht : t.error = some e) : FailsAt c s e t :=
  ⟨1, by rw [runUnder_succ h, runUnder_of_failed ((status_failed_iff t e).mpr ht)]⟩

/-- A step that leaves an error raised it, since it began without one, and raising changes nothing else (D8). -/
theorem eq_withError_of_stepUnder_next {c : Config} {s t : State} {e : ErrorKind} (h : stepUnder c s = .next t)
    (ht : t.error = some e) : t = { s with error := some e } := by
  have hchanged : t.error ≠ s.error := by simp [ht, (stepUnder_next_running h).2]
  obtain ⟨-, -, hraised⟩ := errorIsNeverCleared
  obtain ⟨e', rfl⟩ := hraised c s t h hchanged
  rw [Option.some.inj ht]

/-- Settles O19: the step only set `error` (O22), a failed machine takes no step (O22), and the run of that one step
returns the kind. -/
theorem errorAbortsTheRun : Obligations.ErrorAbortsTheRun := by
  intro c s t e h ht
  obtain ⟨hstops, -, -⟩ := errorIsNeverCleared
  have hfailed : t.error ≠ none := by simp [ht]
  exact ⟨eq_withError_of_stepUnder_next h ht, fun u => hstops c t u hfailed, failsAt_of_stepUnder_next h ht⟩

end Sys2Proof.Machine
end

section
/-! Proofs for spec/70_reset_and_hazards.md: `load` (R201), the refusals after a run (R202, D24), and the three ends of
a run (R203, R205). The ends rest on two facts about the run loop: once a run has ended, more fuel does not change the
answer, and the answer reports the status of the state left. -/

namespace Sys2Proof.Machine

/-! ### Storing an image -/

/-- A run of bytes leaves every address outside it as it was, in any memory. -/
theorem read_storeBytes_outside : ∀ (bs : List Byte) {a x : Nat} (m : Memory), x < a ∨ a + bs.length ≤ x →
    Memory.read (storeBytes bs a m) x = Memory.read m x
  | [], _, _, _, _ => rfl
  | b :: bs, a, x, m, hx => by
    rw [List.length_cons] at hx
    have hne : x ≠ a := by omega
    rw [storeBytes, read_storeBytes_outside bs _ (by omega)]
    split
    · exact Memory.read_write_ne m b hne
    · rfl

/-- A run of bytes that fits is read back byte for byte, in a canonical memory. -/
theorem read_storeBytes_inside : ∀ {bs : List Byte} {a k : Nat} {m : Memory}, Memory.wf m = true →
    a + bs.length ≤ memSize → (hk : k < bs.length) → Memory.read (storeBytes bs a m) (a + k) = bs[k]
  | b :: bs, a, k, m, hwf, hfits, hk => by
    rw [List.length_cons] at hfits
    have ha : a < memSize := by omega
    rw [storeBytes, if_pos ha]
    cases k with
    | zero =>
      exact (read_storeBytes_outside bs _ (.inl a.lt_succ_self)).trans (Memory.read_write_same hwf a b)
    | succ k =>
      have haddr : a + (k + 1) = a + 1 + k := by omega
      rw [haddr]
      exact read_storeBytes_inside (Memory.wf_write hwf ha) (by omega) (Nat.lt_of_succ_lt_succ hk)

/-! ### The host's operations -/

theorem load_of_running {bytes : List Byte} {s : State} (hs : s.status = .running) (hfits : bytes.length ≤ memSize) :
    load bytes s = .next { s with mem := storeBytes bytes 0 s.mem } := by
  simp [load, hs, Nat.not_lt.mpr hfits, loadFrom_eq]

theorem load_oversized {bytes : List Byte} {s : State} (hs : s.status = .running) (hlong : memSize < bytes.length) :
    load bytes s = .fault .loadOutOfBounds := by
  simp [load, hs, hlong]

/-- Settles O34: a load that fits stores the image and nothing else, and a stored image reads back. -/
theorem loadWritesTheImageOnly : Obligations.LoadWritesTheImageOnly := by
  refine fun bytes s hs hwf => ⟨fun hlen => ?_, load_oversized hs⟩
  have hfits : 0 + bytes.length ≤ memSize := (Nat.zero_add _).trans_le hlen
  refine ⟨_, load_of_running hs hlen, fun a ha => ?_, fun a ha => ?_, rfl⟩
  · simpa using read_storeBytes_inside hwf hfits ha
  · exact read_storeBytes_outside bytes s.mem (.inr ((Nat.zero_add _).trans_le ha))

/-- Settles O32: a load changes memory alone, and storing bytes keeps the canonical form. -/
theorem loadKeepsTheInvariant : Obligations.LoadKeepsTheInvariant := by
  intro bytes s t hs h
  obtain ⟨-, -, rfl⟩ := load_next h
  exact { hs with memory := wf_storeBytes bytes 0 hs.memory }

/-- Settles O35: the two kinds of ended machine each refuse both operations. -/
theorem hostOperationsAreRefusedAfterTheRun : Obligations.HostOperationsAreRefusedAfterTheRun := by
  intro c fuel bytes s hended
  cases hs : s.status with
  | running => exact absurd hs hended
  | halted => simp [load, start, hs]
  | failed e => simp [load, start, hs]

/-! ### The run loop -/

/-- The state a run has come to. -/
def RunResult.state : RunResult → State
  | .ok t => t
  | .error _ t => t
  | .goesOn t => t

/-- The status the run loop's answer reports. -/
def RunResult.status : RunResult → Status
  | .ok _ => .halted
  | .error e _ => .failed e
  | .goesOn _ => .running

/-- Without fuel the run loop reports the status of the state it was given. -/
theorem status_runUnder_zero (c : Config) (s : State) : (runUnder c 0 s).status = s.status := by
  cases hs : s.status with
  | halted => rw [runUnder_of_halted hs]; rfl
  | failed e => rw [runUnder_of_failed hs]; rfl
  | running => rw [runUnder_zero_of_running hs]; rfl

theorem state_runUnder_zero (c : Config) (s : State) : (runUnder c 0 s).state = s := by
  cases hs : s.status with
  | halted => rw [runUnder_of_halted hs]; rfl
  | failed e => rw [runUnder_of_failed hs]; rfl
  | running => rw [runUnder_zero_of_running hs]; rfl

/-- From an ended machine the fuel does not matter. -/
theorem runUnder_of_not_running {c : Config} {s : State} (hs : s.status ≠ .running) (n : Nat) :
    runUnder c n s = runUnder c 0 s := by
  cases h : s.status with
  | running => exact absurd h hs
  | halted => rw [runUnder_of_halted h, runUnder_of_halted h]
  | failed e => rw [runUnder_of_failed h, runUnder_of_failed h]

/-- What the run loop reports is the status of the state it has come to. -/
theorem runUnder_state_status (c : Config) (n : Nat) (s : State) :
    (runUnder c n s).state.status = (runUnder c n s).status := by
  induction n generalizing s with
  | zero => rw [state_runUnder_zero, status_runUnder_zero]
  | succ n ih =>
    by_cases hs : s.status = .running
    · obtain ⟨t, ht⟩ := stepUnder_of_running c hs
      rw [runUnder_succ ht]
      exact ih t
    · rw [runUnder_of_not_running hs, state_runUnder_zero, status_runUnder_zero]

/-- Once a run has ended, more fuel does not change its answer. -/
theorem runUnder_of_le {c : Config} {n m : Nat} {s : State} (hended : (runUnder c n s).status ≠ .running)
    (hnm : n ≤ m) : runUnder c m s = runUnder c n s := by
  induction n generalizing s m with
  | zero => exact runUnder_of_not_running (by rwa [← status_runUnder_zero c s]) m
  | succ n ih =>
    by_cases hs : s.status = .running
    · obtain ⟨t, ht⟩ := stepUnder_of_running c hs
      obtain ⟨m, rfl⟩ := Nat.exists_eq_add_of_le' (Nat.one_le_of_lt hnm)
      rw [runUnder_succ ht] at hended
      rw [runUnder_succ ht, runUnder_succ ht]
      exact ih hended (Nat.le_of_succ_le_succ hnm)
    · rw [runUnder_of_not_running hs, runUnder_of_not_running hs (n + 1)]

/-- Two numbers of steps after which a run has ended give one answer. -/
theorem runUnder_ended_unique {c : Config} {n m : Nat} {s : State} {r r' : RunResult} (hn : runUnder c n s = r)
    (hm : runUnder c m s = r') (hr : r.status ≠ .running) (hr' : r'.status ≠ .running) : r = r' := by
  subst hn hm
  rcases Nat.le_total n m with hnm | hmn
  · exact (runUnder_of_le hr hnm).symm
  · exact runUnder_of_le hr' hmn

/-! ### The ends of a run -/

theorem HaltsAt.unique {c : Config} {s t u : State} : HaltsAt c s t → HaltsAt c s u → t = u
  | ⟨_, hn⟩, ⟨_, hm⟩ => RunResult.ok.inj (runUnder_ended_unique hn hm nofun nofun)

theorem FailsAt.unique {c : Config} {s t t' : State} {e e' : ErrorKind} :
    FailsAt c s e t → FailsAt c s e' t' → e = e' ∧ t = t'
  | ⟨_, hn⟩, ⟨_, hm⟩ => RunResult.error.inj (runUnder_ended_unique hn hm nofun nofun)

theorem HaltsAt.not_failsAt {c : Config} {s t u : State} {e : ErrorKind} : HaltsAt c s t → ¬ FailsAt c s e u
  | ⟨_, hn⟩, ⟨_, hm⟩ => nomatch runUnder_ended_unique hn hm nofun nofun

/-- A run that has an end does not go on at the number of steps of that end. -/
theorem not_diverges_of_ended {c : Config} {s : State} {n : Nat} {r : RunResult} (hn : runUnder c n s = r)
    (hr : r.status ≠ .running) : ¬ Diverges c s := by
  intro hdiv
  obtain ⟨t, ht⟩ := hdiv n
  obtain rfl : r = .goesOn t := hn.symm.trans ht
  exact hr rfl

theorem HaltsAt.status {c : Config} {s t : State} : HaltsAt c s t → t.status = .halted
  | ⟨n, hn⟩ => by simpa [hn, RunResult.state, RunResult.status] using runUnder_state_status c n s

theorem FailsAt.status {c : Config} {s t : State} {e : ErrorKind} : FailsAt c s e t → t.status = .failed e
  | ⟨n, hn⟩ => by simpa [hn, RunResult.state, RunResult.status] using runUnder_state_status c n s

theorem HaltsAt.not_diverges {c : Config} {s t : State} : HaltsAt c s t → ¬ Diverges c s
  | ⟨_, hn⟩ => not_diverges_of_ended hn nofun

theorem FailsAt.not_diverges {c : Config} {s t : State} {e : ErrorKind} : FailsAt c s e t → ¬ Diverges c s
  | ⟨_, hn⟩ => not_diverges_of_ended hn nofun

/-- A run that neither halts nor fails diverges. -/
theorem halts_or_fails_or_diverges (c : Config) (s : State) :
    (∃ t, HaltsAt c s t) ∨ (∃ e t, FailsAt c s e t) ∨ Diverges c s := by
  by_cases hhalt : ∃ t, HaltsAt c s t
  · exact .inl hhalt
  by_cases hfail : ∃ e t, FailsAt c s e t
  · exact .inr (.inl hfail)
  exact .inr (.inr (diverges_of_not_ended (not_exists.mp hhalt) fun e t h => hfail ⟨e, t, h⟩))

/-- Settles O33: the three ends are all there are, they exclude each other, and the state left has the status the run
loop reports. -/
theorem runEndsInExactlyOneWay : Obligations.RunEndsInExactlyOneWay := by
  refine fun c s => ⟨halts_or_fails_or_diverges c s, fun _ _ => HaltsAt.unique, fun _ _ _ _ => FailsAt.unique,
    fun _ _ _ => HaltsAt.not_failsAt, fun t h => ⟨h.not_diverges, ?_⟩, fun e t h => ⟨h.not_diverges, ?_⟩⟩
  · exact (status_halted_iff t).mp h.status
  · exact (status_failed_iff t e).mp h.status

end Sys2Proof.Machine
end
